-- ==== Sys2Proof/Word.lean ====
section
/-!
DEFINITION. The word types of the core (spec/00_scope.md R7, R10, R11): every value is unsigned,
bit 0 is the least significant bit.
-/

namespace Sys2Proof

/-- An 8-bit value: a variable register, a timer, a memory byte, the immediate NN. -/
abbrev Byte := BitVec 8

/-- A 16-bit value: `pc`, `I`, a return address, an instruction word. -/
abbrev Word := BitVec 16

/-- The 12-bit immediate NNN. -/
abbrev Addr := BitVec 12

/-- The index 0..15 of a variable register V0 to VF (spec/10_state.md R21). -/
abbrev Reg := Fin 16

/-- The index of the flag register VF (spec/00_scope.md R15). -/
abbrev Reg.vf : Reg := 15

end Sys2Proof
end

