-- ==== Sys2Proof/Config.lean ====
section
/-!
DEFINITION. What an implementation fixes: the fixed parameters of spec/00_scope.md R7 and the open
parameters of R8. The open parameters are plain data that a machine carries (`State.params`), so
that every claim is a claim for all their values (notes/assumptions/1.md).
-/

namespace Sys2Proof

namespace Config

/-- `MEM_SIZE` (R7). -/
def memSize : Nat := 4096

/-- `FONT_BASE` (R7). -/
def fontBase : Nat := 0x050

/-- `FONT_GLYPHS` × `GLYPH_BYTES` (R7): the length of the font region. -/
def fontSize : Nat := 80

/-- `GLYPH_BYTES` (R7). -/
def glyphBytes : Nat := 5

/-- `PROG_BASE` (R7): where the program image lies and where `start` sets `pc`. -/
def progBase : Nat := 0x200

/-- `PROG_MAX_LEN` (R7, R170). -/
def progMaxLen : Nat := 3584

/-- `TIMER_HZ` (R7): the environment's tick rate. No rule of the core reads it (R178). -/
def timerHz : Nat := 60

/-- `IPS` (R7): the environment's default instruction rate. No rule of the core reads it (R178). -/
def defaultIps : Nat := 700

/-- The addresses 0x050 to 0x09F (R57), for an address already reduced modulo 4096. -/
def inFont (a : Nat) : Bool := decide (fontBase ≤ a ∧ a < fontBase + fontSize)

/-- The addresses the loader may write, 0x200 to 0xFFF (R167). -/
def inProgram (a : Nat) : Bool := decide (progBase ≤ a ∧ a < memSize)

end Config

/-- `FONT_WRITE` (R8, R58): what a program store into the font region does. -/
inductive FontWrite where
  | fault
  | write
deriving DecidableEq, Repr

/-- `KEY_RANGE` (R8, R136): what EX9E and EXA1 do with a key number above 0x0F. -/
inductive KeyRange where
  | fault
  | notHeld
deriving DecidableEq, Repr

/-- `VF_SHIFT_ORDER` (R8, R125): the order of the two writes of 8XY6 and 8XYE. -/
inductive VfShiftOrder where
  | sequential
  | flagLast
  | latched
deriving DecidableEq, Repr

/-- The open parameters of R8, fixed for one machine. -/
structure Params where
  /-- `STACK_DEPTH`: the most return addresses the call stack holds. -/
  stackDepth : Nat
  /-- `V_RESET`: the value of V0 to VF at reset. -/
  vReset : Vector Byte 16
  /-- `FONT`: the 80 glyph bytes. -/
  font : Vector Byte 80
  fontWrite : FontWrite
  keyRange : KeyRange
  vfShiftOrder : VfShiftOrder
deriving DecidableEq, Repr

/-- The default of `FONT`: the table of spec/10_state.md R40, glyph by glyph. -/
def defaultFont : Vector Byte 80 :=
  #v[0xF0, 0x90, 0x90, 0x90, 0xF0,   0x20, 0x60, 0x20, 0x20, 0x70,
     0xF0, 0x10, 0xF0, 0x80, 0xF0,   0xF0, 0x10, 0xF0, 0x10, 0xF0,
     0x90, 0x90, 0xF0, 0x10, 0x10,   0xF0, 0x80, 0xF0, 0x10, 0xF0,
     0xF0, 0x80, 0xF0, 0x90, 0xF0,   0xF0, 0x10, 0x20, 0x40, 0x40,
     0xF0, 0x90, 0xF0, 0x90, 0xF0,   0xF0, 0x90, 0xF0, 0x10, 0xF0,
     0xF0, 0x90, 0xF0, 0x90, 0x90,   0xE0, 0x90, 0xE0, 0x90, 0xE0,
     0xF0, 0x80, 0x80, 0x80, 0xF0,   0xE0, 0x90, 0x90, 0x90, 0xE0,
     0xF0, 0x80, 0xF0, 0x80, 0xF0,   0xF0, 0x80, 0xF0, 0x80, 0x80]

/-- The defaults of R8. -/
def Params.default : Params where
  stackDepth := 16
  vReset := Vector.replicate 16 0
  font := defaultFont
  fontWrite := .fault
  keyRange := .fault
  vfShiftOrder := .sequential

end Sys2Proof
end

