-- ==== Sys2Proof/Syntax.lean ====
section
/-!
DEFINITION. The instructions: one constructor per row of spec/30_encoding.md R80 (the rows of
spec/opcode_table.json), with the operand fields of R74. Every value of every field is legal
(R77, R78), so the operand types carry all the bounds: a register is 0..15, NN 8 bits, NNN 12 bits,
a row count N is 0..15.
-/

namespace Sys2Proof

inductive Instr where
  /-- 00E0 `CLS` (R102). -/
  | cls
  /-- 00EE `RET` (R108). -/
  | ret
  /-- 1NNN `JP addr` (R109). -/
  | jp (nnn : Addr)
  /-- 2NNN `CALL addr` (R110). -/
  | call (nnn : Addr)
  /-- 3XNN `SE Vx, byte` (R111). -/
  | seByte (x : Reg) (nn : Byte)
  /-- 4XNN `SNE Vx, byte` (R112). -/
  | sneByte (x : Reg) (nn : Byte)
  /-- 5XY0 `SE Vx, Vy` (R113). -/
  | seReg (x y : Reg)
  /-- 9XY0 `SNE Vx, Vy` (R114). -/
  | sneReg (x y : Reg)
  /-- 6XNN `LD Vx, byte` (R117). -/
  | ldByte (x : Reg) (nn : Byte)
  /-- 7XNN `ADD Vx, byte` (R118). -/
  | addByte (x : Reg) (nn : Byte)
  /-- 8XY0 `LD Vx, Vy` (R119). -/
  | ldReg (x y : Reg)
  /-- 8XY1 `OR Vx, Vy` (R120). -/
  | orReg (x y : Reg)
  /-- 8XY2 `AND Vx, Vy` (R121). -/
  | andReg (x y : Reg)
  /-- 8XY3 `XOR Vx, Vy` (R122). -/
  | xorReg (x y : Reg)
  /-- 8XY4 `ADD Vx, Vy` (R123). -/
  | addReg (x y : Reg)
  /-- 8XY5 `SUB Vx, Vy` (R124). -/
  | subReg (x y : Reg)
  /-- 8XY6 `SHR Vx` (R125). The Y field is decoded and ignored (R84); the constructor keeps it, so
  that every legal word is the encoding of exactly one instruction (R87). -/
  | shr (x y : Reg)
  /-- 8XY7 `SUBN Vx, Vy` (R126). -/
  | subnReg (x y : Reg)
  /-- 8XYE `SHL Vx` (R127). The Y field is decoded and ignored, as for `shr`. -/
  | shl (x y : Reg)
  /-- ANNN `LD I, addr` (R130). -/
  | ldI (nnn : Addr)
  /-- BNNN `JP V0, addr` (R115). -/
  | jpV0 (nnn : Addr)
  /-- CXNN `RND Vx, byte` (R128). -/
  | rnd (x : Reg) (nn : Byte)
  /-- DXYN `DRW Vx, Vy, nibble` (R103); `n` is the row count. -/
  | drw (x y : Reg) (n : Fin 16)
  /-- EX9E `SKP Vx` (R136). -/
  | skp (x : Reg)
  /-- EXA1 `SKNP Vx` (R137). -/
  | sknp (x : Reg)
  /-- FX07 `LD Vx, DT` (R139). -/
  | ldVxDt (x : Reg)
  /-- FX15 `LD DT, Vx` (R140). -/
  | ldDtVx (x : Reg)
  /-- FX18 `LD ST, Vx` (R141). -/
  | ldStVx (x : Reg)
  /-- FX1E `ADD I, Vx` (R131). -/
  | addI (x : Reg)
  /-- FX0A `LD Vx, K` (R138). -/
  | ldVxK (x : Reg)
  /-- FX29 `LD F, Vx` (R132). -/
  | ldF (x : Reg)
  /-- FX33 `LD B, Vx` (R133). -/
  | ldB (x : Reg)
  /-- FX55 `LD [I], Vx` (R134). -/
  | storeRegs (x : Reg)
  /-- FX65 `LD Vx, [I]` (R135). -/
  | loadRegs (x : Reg)
deriving DecidableEq, Repr

end Sys2Proof
end

