-- ==== Sys2Proof/Decode.lean ====
section
/-!
DEFINITION. Field extraction, decoding and encoding of the one 16-bit instruction format
(spec/30_encoding.md R73 to R85).
-/

namespace Sys2Proof

/-- Why a byte sequence is no instruction. The six illegal families are the rows of R82. -/
inductive Reject where
  /-- fewer than two bytes (R73: a decoder always consumes exactly two). -/
  | tooShort
  /-- 0NNN other than 00E0 and 00EE. -/
  | illegalZero
  /-- 5XYN with N ≠ 0. -/
  | illegalFive
  /-- 8XYN with N in 8, 9, A, B, C, D, F. -/
  | illegalEight
  /-- 9XYN with N ≠ 0. -/
  | illegalNine
  /-- EXKK with KK not 9E or A1. -/
  | illegalKey
  /-- FXKK with KK none of 07, 0A, 15, 18, 1E, 29, 33, 55, 65. -/
  | illegalMisc
deriving DecidableEq, Repr

/-- The six overlapping fields of a word (R74). -/
structure Fields where
  op : BitVec 4
  x : BitVec 4
  y : BitVec 4
  n : BitVec 4
  nn : Byte
  nnn : Addr
deriving DecidableEq, Repr

/-- Field extraction is pure and total (R74, R75). -/
def Fields.ofWord (w : Word) : Fields where
  op := w.extractLsb' 12 4
  x := w.extractLsb' 8 4
  y := w.extractLsb' 4 4
  n := w.extractLsb' 0 4
  nn := w.extractLsb' 0 8
  nnn := w.extractLsb' 0 12

/-- A 4-bit field as a register index or a row count. -/
def nibbleToFin (b : BitVec 4) : Fin 16 := b.toFin

/-- A register index or a row count as a 4-bit field. -/
def finToNibble (x : Fin 16) : BitVec 4 := BitVec.ofFin x

/-- Family 0: two fixed words (R79). -/
def decodeZero (f : Fields) : Except Reject Instr :=
  if f.nnn = 0x0E0 then .ok .cls
  else if f.nnn = 0x0EE then .ok .ret
  else .error .illegalZero

/-- Family 8, selected by the low nibble (R79). -/
def decodeEight (f : Fields) : Except Reject Instr :=
  let x := nibbleToFin f.x
  let y := nibbleToFin f.y
  if f.n = 0x0 then .ok (.ldReg x y)
  else if f.n = 0x1 then .ok (.orReg x y)
  else if f.n = 0x2 then .ok (.andReg x y)
  else if f.n = 0x3 then .ok (.xorReg x y)
  else if f.n = 0x4 then .ok (.addReg x y)
  else if f.n = 0x5 then .ok (.subReg x y)
  else if f.n = 0x6 then .ok (.shr x y)
  else if f.n = 0x7 then .ok (.subnReg x y)
  else if f.n = 0xE then .ok (.shl x y)
  else .error .illegalEight

/-- Family E, selected by the low byte (R79). -/
def decodeKey (f : Fields) : Except Reject Instr :=
  let x := nibbleToFin f.x
  if f.nn = 0x9E then .ok (.skp x)
  else if f.nn = 0xA1 then .ok (.sknp x)
  else .error .illegalKey

/-- Family F, selected by the low byte (R79). -/
def decodeMisc (f : Fields) : Except Reject Instr :=
  let x := nibbleToFin f.x
  if f.nn = 0x07 then .ok (.ldVxDt x)
  else if f.nn = 0x0A then .ok (.ldVxK x)
  else if f.nn = 0x15 then .ok (.ldDtVx x)
  else if f.nn = 0x18 then .ok (.ldStVx x)
  else if f.nn = 0x1E then .ok (.addI x)
  else if f.nn = 0x29 then .ok (.ldF x)
  else if f.nn = 0x33 then .ok (.ldB x)
  else if f.nn = 0x55 then .ok (.storeRegs x)
  else if f.nn = 0x65 then .ok (.loadRegs x)
  else .error .illegalMisc

/-- The dispatch of a field tuple to its instruction (spec/40_cycle.md R96), family by family (R79). -/
def dispatch (f : Fields) : Except Reject Instr :=
  let x := nibbleToFin f.x
  let y := nibbleToFin f.y
  if f.op = 0x0 then decodeZero f
  else if f.op = 0x1 then .ok (.jp f.nnn)
  else if f.op = 0x2 then .ok (.call f.nnn)
  else if f.op = 0x3 then .ok (.seByte x f.nn)
  else if f.op = 0x4 then .ok (.sneByte x f.nn)
  else if f.op = 0x5 then (if f.n = 0 then .ok (.seReg x y) else .error .illegalFive)
  else if f.op = 0x6 then .ok (.ldByte x f.nn)
  else if f.op = 0x7 then .ok (.addByte x f.nn)
  else if f.op = 0x8 then decodeEight f
  else if f.op = 0x9 then (if f.n = 0 then .ok (.sneReg x y) else .error .illegalNine)
  else if f.op = 0xA then .ok (.ldI f.nnn)
  else if f.op = 0xB then .ok (.jpV0 f.nnn)
  else if f.op = 0xC then .ok (.rnd x f.nn)
  else if f.op = 0xD then .ok (.drw x y (nibbleToFin f.n))
  else if f.op = 0xE then decodeKey f
  else decodeMisc f

/-- The instruction a word stands for, or the family of illegal words it lies in (R80, R82). -/
def decode (w : Word) : Except Reject Instr := dispatch (Fields.ofWord w)

/-- The word of two bytes, the first in memory in bits 15:8 (spec/20_memory.md R61). -/
def wordOfBytes (hi lo : Byte) : Word := hi ++ lo

/-- The byte of a word that lies at the lower address, bits 15:8 (R61). -/
def highByte (w : Word) : Byte := w.extractLsb' 8 8

/-- The byte of a word that lies at the higher address, bits 7:0 (R61). -/
def lowByte (w : Word) : Byte := w.extractLsb' 0 8

/-- Decoding a byte sequence: exactly two bytes are consumed (R73). -/
def decodeBytes : List Byte → Except Reject (Instr × List Byte)
  | hi :: lo :: rest => (decode (wordOfBytes hi lo)).map fun i => (i, rest)
  | _ => .error .tooShort

/-! ### Encoding -/

/-- Formats NNN of R76: op, NNN. -/
def packNNN (op : BitVec 4) (nnn : Addr) : Word := op ++ nnn

/-- Formats XNN and XS of R76: op, X and the low byte (NN, or a sub-opcode). -/
def packXNN (op : BitVec 4) (x : Reg) (nn : Byte) : Word := op ++ finToNibble x ++ nn

/-- Formats XYN and XYS of R76: op, X, Y and the low nibble (N, or a sub-opcode). -/
def packXYN (op : BitVec 4) (x y : Reg) (n : BitVec 4) : Word :=
  op ++ finToNibble x ++ finToNibble y ++ n

/-- The word of an instruction, from R76 and R80. -/
def encode : Instr → Word
  | .cls => 0x00E0
  | .ret => 0x00EE
  | .jp nnn => packNNN 0x1 nnn
  | .call nnn => packNNN 0x2 nnn
  | .seByte x nn => packXNN 0x3 x nn
  | .sneByte x nn => packXNN 0x4 x nn
  | .seReg x y => packXYN 0x5 x y 0x0
  | .sneReg x y => packXYN 0x9 x y 0x0
  | .ldByte x nn => packXNN 0x6 x nn
  | .addByte x nn => packXNN 0x7 x nn
  | .ldReg x y => packXYN 0x8 x y 0x0
  | .orReg x y => packXYN 0x8 x y 0x1
  | .andReg x y => packXYN 0x8 x y 0x2
  | .xorReg x y => packXYN 0x8 x y 0x3
  | .addReg x y => packXYN 0x8 x y 0x4
  | .subReg x y => packXYN 0x8 x y 0x5
  | .shr x y => packXYN 0x8 x y 0x6
  | .subnReg x y => packXYN 0x8 x y 0x7
  | .shl x y => packXYN 0x8 x y 0xE
  | .ldI nnn => packNNN 0xA nnn
  | .jpV0 nnn => packNNN 0xB nnn
  | .rnd x nn => packXNN 0xC x nn
  | .drw x y n => packXYN 0xD x y (finToNibble n)
  | .skp x => packXNN 0xE x 0x9E
  | .sknp x => packXNN 0xE x 0xA1
  | .ldVxDt x => packXNN 0xF x 0x07
  | .ldDtVx x => packXNN 0xF x 0x15
  | .ldStVx x => packXNN 0xF x 0x18
  | .addI x => packXNN 0xF x 0x1E
  | .ldVxK x => packXNN 0xF x 0x0A
  | .ldF x => packXNN 0xF x 0x29
  | .ldB x => packXNN 0xF x 0x33
  | .storeRegs x => packXNN 0xF x 0x55
  | .loadRegs x => packXNN 0xF x 0x65

/-- The two bytes of an instruction in memory order (R61, R73). -/
def encodeBytes (i : Instr) : List Byte := [highByte (encode i), lowByte (encode i)]

/-- The word that stands for the low `nbits` bits of `w`, as spec/opcode_table.json numbers them (every
row has one 16-bit word; what lies above `nbits` is 0). -/
def tableWord (nbits w : Nat) : Word := BitVec.ofNat 16 (w % 2 ^ nbits)

/-- The instruction the decoder reads from an opcode-table word laid out in memory order. -/
def decodeTableWord (nbits w : Nat) : Option Instr :=
  match decodeBytes [highByte (tableWord nbits w), lowByte (tableWord nbits w)] with
  | .ok (i, _) => some i
  | .error _ => none

end Sys2Proof
end

