-- ==== Sys2Proof/Machine/State.lean ====
section
/-!
DEFINITION. The state of the core: spec/10_state.md R20, the signals of its section 14 that a step
samples or drives, and the open parameters. Plain data throughout.
-/

namespace Sys2Proof.Machine

/-- The stop reasons of a step. It has no constructor: a fatal fault of the core (spec/60_exceptions.md
R142) is a NEXT state, phase HALTED with the fault record written (R143), and nothing else stops the
core (spec/20_memory.md R55: no address fault). Nobody raises it; safe (notes/assumptions/9.md). -/
inductive Fault
deriving DecidableEq, Repr

/-- The reasons an instruction has no meaning in the model. -/
inductive Refusal where
  /-- Raised by an arm of `exec` whose instruction has no meaning yet; safe. No arm raises it now. -/
  | notModelled (mnemonic : String)
deriving DecidableEq, Repr

/-- The run phase (R43). -/
inductive Phase where
  | load
  | run
  | halted
deriving DecidableEq, Repr

/-- The five fatal faults (R142). -/
inductive FaultCode where
  | unknownInstruction
  | stackUnderflow
  | stackOverflow
  | fontWrite
  | keyRange
deriving DecidableEq, Repr

/-- The fault record, when it is not `none` (R42). -/
structure FaultRecord where
  code : FaultCode
  /-- the instruction word that faulted -/
  word : Word
  /-- the address it was fetched from -/
  addr : Word
deriving DecidableEq, Repr

/-- A request of the environment, with the inputs the step samples (R45 to R48; the rows of
spec/60_exceptions.md R164 that make the core step). -/
inductive Request where
  /-- `rst` -/
  | reset
  /-- `ld_we` with `ld_addr[11:0]` and `ld_data[7:0]` -/
  | load (addr : Addr) (data : Byte)
  | start
  /-- `cycle_req` with the key lines `keys[15:0]` and the random byte `rnd[7:0]` -/
  | cycle (keys : BitVec 16) (rnd : Byte)
  /-- `tick_req` -/
  | tick
deriving DecidableEq, Repr

/-- The locals of one instruction cycle (spec/40_cycle.md R91). They are written when a cycle begins
and read only inside it: the model's own field, no state of the spec (notes/assumptions/5.md). -/
structure CycleLatch where
  /-- `K`: the key snapshot; bit k is true when hex key k is held (R38, R93). -/
  keys : BitVec 16
  /-- `r`: this cycle's `Rand8()` (R99). -/
  rnd : Byte
  /-- `p`: the fetch address. -/
  addr : Word
  /-- `w`: the fetched word. -/
  word : Word
deriving DecidableEq, Repr

/-- The memory: the bytes that differ from the reset contents, in the canonical form `Memory.wf`. -/
abbrev Memory := List Host.Cell

/-- The display buffer: 32 rows of 64 pixels; `D[x][y]` is pixel `x` of row `y` (R34). -/
abbrev Display := Vector (Vector Bool 64) 32

/-- The blank display. -/
def Display.blank : Display := Vector.replicate 32 (Vector.replicate 64 false)

structure State where
  /-- the open parameters of this machine (spec/00_scope.md R8); no step changes them -/
  params : Params
  /-- `M` -/
  mem : Memory
  /-- `V[0]` to `V[15]` -/
  v : Vector Byte 16
  pc : Word
  /-- the index register `I` -/
  idx : Word
  /-- `S`, top at the end -/
  stack : List Word
  dt : Byte
  st : Byte
  /-- `D` -/
  disp : Display
  phase : Phase
  fault : Option FaultRecord
  /-- the locals of the current or last cycle -/
  cycle : CycleLatch
  /-- the environment's requests, in the order the core takes them (notes/assumptions/3.md) -/
  requests : List Request
  /-- output: the last step pulsed `frame_strobe` (R49) -/
  frameStrobe : Bool
  /-- output: the last step pulsed `tone_strobe` (R50) -/
  toneStrobe : Bool
deriving DecidableEq, Repr

/-- The state after reset for given open parameters (R44, spec/70_reset_and_hazards.md R166). -/
def State.resetWith (p : Params) : State where
  params := p
  mem := []
  v := p.vReset
  pc := 0x0000
  idx := 0x0000
  stack := []
  dt := 0x00
  st := 0x00
  disp := Display.blank
  phase := .load
  fault := none
  cycle := ⟨0, 0, 0, 0⟩
  requests := []
  frameStrobe := false
  toneStrobe := false

/-- The state after reset with the default parameters of R8. -/
def State.reset : State := State.resetWith Params.default

end Sys2Proof.Machine
end

