-- ==== Sys2Proof/Machine/Ops.lean ====
section
/-!
DEFINITION. The named operations over registers, memory, the call stack and the display, and the
taking of a fatal fault. There is no return from a fault (spec/60_exceptions.md R151).
-/

namespace Sys2Proof.Machine

/-! ### Variable registers -/

/-- `V[k]` (spec/00_scope.md R13). -/
def State.getV (s : State) (k : Reg) : Byte := s.v[k.val]

/-- `V[k] <- b`. -/
def State.setV (s : State) (k : Reg) (b : Byte) : State := { s with v := s.v.set k.val b }

/-- The register indexes 0..x of FX55 and FX65, rising (spec/44_index_memory.md R134, R135). -/
def Reg.upTo (x : Reg) : List Reg := (List.finRange 16).filter fun k => k.val ≤ x.val

/-! ### Memory -/

/-- What an address that is not listed reads as: the reset contents (spec/10_state.md R44,
spec/20_memory.md R56, R65), the font at 0x050 to 0x09F and 0x00 elsewhere. -/
def resetByte (p : Params) (a : Nat) : Byte :=
  if h : Config.fontBase ≤ a ∧ a < Config.fontBase + 80 then p.font[a - Config.fontBase] else 0

/-- The canonical form of a memory, for the parameters that say what an unlisted address reads as:
addresses below 4096 and strictly rising, no entry equal to what its address reads as unlisted. -/
abbrev Memory.wf (p : Params) (m : Memory) : Prop :=
  m.Pairwise (fun c d => c.1 < d.1) ∧ ∀ c ∈ m, c.1 < Config.memSize ∧ c.2 ≠ resetByte p c.1

/-- The byte listed at `a`, or `d` where none is. -/
def Memory.read (d : Byte) (a : Nat) : Memory → Byte
  | [] => d
  | c :: m => if c.1 = a then c.2 else Memory.read d a m

/-- A new entry put before the first one with a larger address. -/
def Memory.insert (c : Host.Cell) : Memory → Memory
  | [] => [c]
  | e :: m => if c.1 < e.1 then c :: e :: m else e :: Memory.insert c m

/-- The entry at `a` becomes `b`; `d` is what `a` reads as when it is not listed, so writing `d`
removes the entry. -/
def Memory.write (d : Byte) (a : Nat) (b : Byte) (m : Memory) : Memory :=
  let rest := m.filter fun c => c.1 != a
  if b = d then rest else Memory.insert (a, b) rest

/-- An address reduced modulo 4096 at the access (spec/20_memory.md R55). -/
def reduce (a : Nat) : Nat := a % Config.memSize

/-- `MemRead(a, 1)` for any natural `a` (R55). -/
def State.readByte (s : State) (a : Nat) : Byte :=
  Memory.read (resetByte s.params (reduce a)) (reduce a) s.mem

/-- `M[a mod 4096] <- b`, without the font policy of R58. -/
def State.writeByte (s : State) (a : Nat) (b : Byte) : State :=
  { s with mem := Memory.write (resetByte s.params (reduce a)) (reduce a) b s.mem }

/-- The bytes `bs` written at `a`, `a + 1`, … in order. -/
def State.writeBytes (s : State) (a : Nat) : List Byte → State
  | [] => s
  | b :: bs => (s.writeByte a b).writeBytes (a + 1) bs

/-- `Fetch(a)`: the word whose high byte is at `a` (R61). -/
def State.fetch (s : State) (a : Nat) : Word := wordOfBytes (s.readByte a) (s.readByte (a + 1))

/-! ### Taking a fault -/

/-- `raise Fault(code)` (spec/60_exceptions.md R143). Every check precedes every write, so all that the
cycle has changed is the fetch increment of `pc`, which is undone; the fault record gets the code, the
fetched word and its address, and the core halts. -/
def takeFault (code : FaultCode) (s : State) : State :=
  { s with
    pc := s.cycle.addr
    fault := some { code := code, word := s.cycle.word, addr := s.cycle.addr }
    phase := .halted }

/-! ### Stores -/

/-- Some byte of the `n` bytes at `a` lies in the font region (R58, R60). -/
def touchesFont (a n : Nat) : Bool := (List.range n).any fun k => Config.inFont (reduce (a + k))

/-- A program store of the bytes `bs` at `a` (R58, R60): every target address is checked before any is
written. -/
def State.storeBytes (s : State) (a : Nat) (bs : List Byte) : State :=
  if s.params.fontWrite = .fault ∧ touchesFont a bs.length = true then takeFault .fontWrite s
  else s.writeBytes a bs

/-! ### The call stack -/

/-- `Push(v)`. -/
def State.push (s : State) (a : Word) : State := { s with stack := s.stack ++ [a] }

/-! ### The program counter -/

/-- `pc <- (pc + 2) mod 2^16` when `taken` (spec/42_flow.md, head). -/
def State.skipIf (s : State) (taken : Bool) : State :=
  if taken then { s with pc := s.pc + 2 } else s

/-- `pc <- (pc + 65534) mod 2^16`, which is `pc - 2`: back to the instruction just fetched
(spec/45_keys_timers.md R138). -/
def State.rewind (s : State) : State := { s with pc := s.pc - 2 }

/-! ### The display -/

/-- `D[x][y]` for natural coordinates; off-screen pixels read as not lit. -/
def Display.pixel (d : Display) (x y : Nat) : Bool :=
  if h : x < 64 ∧ y < 32 then d[y][x] else false

/-- `D[x][y] <- not D[x][y]`; off-screen pixels are dropped (spec/41_display.md R105). -/
def Display.toggle (d : Display) (x y : Nat) : Display :=
  if h : x < 64 ∧ y < 32 then d.set y (d[y].set x (!d[y][x])) else d

/-- `frame_out()`: pulse the frame strobe (R107). -/
def State.frameOut (s : State) : State := { s with frameStrobe := true }

/-- The display and the collision flag while a sprite is drawn. -/
structure Canvas where
  disp : Display
  hit : Bool
deriving DecidableEq, Repr

/-- One sprite bit of value 1 at column `x`, row `y` (R103, R105, R106): off the screen it is dropped,
on a lit pixel it collides, and it toggles the pixel. -/
def Canvas.plot (c : Canvas) (x y : Nat) : Canvas where
  disp := c.disp.toggle x y
  hit := c.hit || c.disp.pixel x y

/-- One sprite row `b` with its leftmost bit at column `ox`, most significant bit first (R103). -/
def Canvas.drawRow (c : Canvas) (ox y : Nat) (b : Byte) : Canvas :=
  (List.range 8).foldl (fun c k => if b.getLsbD (7 - k) then c.plot (ox + k) y else c) c

/-- The sprite rows `rows` from row `oy` down (R103). -/
def Canvas.drawRows (c : Canvas) (ox oy : Nat) : List Byte → Canvas
  | [] => c
  | b :: rows => (c.drawRow ox oy b).drawRows ox (oy + 1) rows

end Sys2Proof.Machine
end

