-- ==== Sys2Proof/Machine/Flags.lean ====
section
/-!
DEFINITION. The flag values that instructions write into VF (spec/10_state.md R35) and the order of
the result write and the flag write, which decides VF when X = F.
-/

namespace Sys2Proof.Machine

/-- A flag as a register value: 1 or 0. -/
def flagByte (b : Bool) : Byte := if b then 1 else 0

/-- The carry out of the unwrapped 9-bit sum (spec/43_alu.md R123). -/
def carryFlag (a b : Byte) : Byte := flagByte (decide (a.toNat + b.toNat > 255))

/-- Not borrow: 1 when `a ≥ b` (R124, R126). -/
def noBorrowFlag (a b : Byte) : Byte := flagByte (decide (a.toNat ≥ b.toNat))

/-- The bit shifted out to the right, `a & 1` (R125). -/
def shiftOutRight (a : Byte) : Byte := a &&& 1

/-- The bit shifted out to the left, `(a >> 7) & 1` (R127). -/
def shiftOutLeft (a : Byte) : Byte := (a >>> 7) &&& 1

/-- The two writes of 8XY4, 8XY5 and 8XY7: the result, then the flag (R123, R124, R126). -/
def State.setResultThenFlag (s : State) (x : Reg) (result flag : Byte) : State :=
  (s.setV x result).setV Reg.vf flag

/-- The two writes of 8XY6 and 8XYE in the order `VF_SHIFT_ORDER` names (R125, R127): `flag` and
`result` are functions of V[X]. In the sequential order the result re-reads V[X] after the flag was
written. The three orders differ only when X = F. -/
def State.shiftInPlace (s : State) (x : Reg) (flag result : Byte → Byte) : State :=
  let a := s.getV x
  match s.params.vfShiftOrder with
  | .sequential =>
    let s' := s.setV Reg.vf (flag a)
    s'.setV x (result (s'.getV x))
  | .flagLast => (s.setV x (result a)).setV Reg.vf (flag a)
  | .latched => (s.setV Reg.vf (flag a)).setV x (result a)

end Sys2Proof.Machine
end

