-- ==== Sys2Proof/Machine/Operands.lean ====
section
/-!
DEFINITION. The operand forms that are not a plain register or a plain byte: the widened address NNN,
the address `I + k`, the sprite of DXYN, the font address of FX29, the decimal digits of FX33, and the
key operands.
-/

namespace Sys2Proof.Machine

/-- `zext_16(NNN)` (spec/30_encoding.md R77). -/
def addrOperand (nnn : Addr) : Word := nnn.zeroExtend 16

/-- `zext_16(b)`: a register added to `pc` or `I` (spec/42_flow.md R115, spec/44_index_memory.md R131). -/
def widenByte (b : Byte) : Word := b.zeroExtend 16

/-- `0x050 + 5 × V[X]` (spec/44_index_memory.md R132): no masking to a nibble. -/
def glyphAddr (b : Byte) : Word := BitVec.ofNat 16 (Config.fontBase + Config.glyphBytes * b.toNat)

/-- The hundreds, tens and ones digit of a byte (R133). -/
def decimalDigits (b : Byte) : List Byte :=
  [BitVec.ofNat 8 (b.toNat / 100), BitVec.ofNat 8 (b.toNat / 10 % 10), BitVec.ofNat 8 (b.toNat % 10)]

/-- `V[0]` to `V[x]` in order (R134). -/
def State.regsUpTo (s : State) (x : Reg) : List Byte := (Reg.upTo x).map s.getV

/-- The `n` sprite rows at `I` (spec/41_display.md R103). -/
def State.spriteRows (s : State) (n : Nat) : List Byte :=
  (List.range n).map fun r => s.readByte (s.idx.toNat + r)

/-- The origin column of a sprite, `V[X] mod 64` (R103, R105). -/
def originColumn (b : Byte) : Nat := b.toNat % 64

/-- The origin row of a sprite, `V[Y] mod 32` (R103, R105). -/
def originRow (b : Byte) : Nat := b.toNat % 32

/-- `K[k]` of the cycle's snapshot (spec/40_cycle.md R93). -/
def State.keyHeld (s : State) (k : Nat) : Bool := s.cycle.keys.getLsbD k

/-- The least `k` in 0..15 with `K[k]` (spec/45_keys_timers.md R138). -/
def State.lowestKey (s : State) : Option Nat := (List.range 16).find? s.keyHeld

/-- The key operand of EX9E and EXA1 (R136, R137): `some held`, or `none` where the instruction raises
`KEY_RANGE`. -/
def State.keyOperand (s : State) (x : Reg) : Option Bool :=
  let k := (s.getV x).toNat
  if k ≤ 0x0F then some (s.keyHeld k)
  else match s.params.keyRange with
    | .fault => none
    | .notHeld => some false

end Sys2Proof.Machine
end

