-- ==== Sys2Proof/Machine/Alu.lean ====
section
/-!
DEFINITION. The register and ALU instructions (spec/43_alu.md). Operands are read before anything is
written; where V[X] and VF are both written, the order is the rule's.
-/

namespace Sys2Proof.Machine

/-- 6XNN `LD Vx, byte` (R117). -/
def execLdByte (x : Reg) (nn : Byte) (s : State) : Host.Outcome State Fault Refusal :=
  .next (s.setV x nn)

/-- 7XNN `ADD Vx, byte` (R118): wraps, no flag. -/
def execAddByte (x : Reg) (nn : Byte) (s : State) : Host.Outcome State Fault Refusal :=
  .next (s.setV x (s.getV x + nn))

/-- 8XY0 `LD Vx, Vy` (R119). -/
def execLdReg (x y : Reg) (s : State) : Host.Outcome State Fault Refusal :=
  .next (s.setV x (s.getV y))

/-- 8XY1 `OR Vx, Vy` (R120): VF is not a flag here. -/
def execOrReg (x y : Reg) (s : State) : Host.Outcome State Fault Refusal :=
  .next (s.setV x (s.getV x ||| s.getV y))

/-- 8XY2 `AND Vx, Vy` (R121). -/
def execAndReg (x y : Reg) (s : State) : Host.Outcome State Fault Refusal :=
  .next (s.setV x (s.getV x &&& s.getV y))

/-- 8XY3 `XOR Vx, Vy` (R122). -/
def execXorReg (x y : Reg) (s : State) : Host.Outcome State Fault Refusal :=
  .next (s.setV x (s.getV x ^^^ s.getV y))

/-- 8XY4 `ADD Vx, Vy` (R123). -/
def execAddReg (x y : Reg) (s : State) : Host.Outcome State Fault Refusal :=
  let a := s.getV x
  let b := s.getV y
  .next (s.setResultThenFlag x (a + b) (carryFlag a b))

/-- 8XY5 `SUB Vx, Vy` (R124). -/
def execSubReg (x y : Reg) (s : State) : Host.Outcome State Fault Refusal :=
  let a := s.getV x
  let b := s.getV y
  .next (s.setResultThenFlag x (a - b) (noBorrowFlag a b))

/-- 8XY6 `SHR Vx` (R125): the Y field is ignored. -/
def execShr (x _y : Reg) (s : State) : Host.Outcome State Fault Refusal :=
  .next (s.shiftInPlace x shiftOutRight (fun a => a >>> 1))

/-- 8XY7 `SUBN Vx, Vy` (R126). -/
def execSubnReg (x y : Reg) (s : State) : Host.Outcome State Fault Refusal :=
  let a := s.getV x
  let b := s.getV y
  .next (s.setResultThenFlag x (b - a) (noBorrowFlag b a))

/-- 8XYE `SHL Vx` (R127): the Y field is ignored. -/
def execShl (x _y : Reg) (s : State) : Host.Outcome State Fault Refusal :=
  .next (s.shiftInPlace x shiftOutLeft (fun a => a <<< 1))

/-- CXNN `RND Vx, byte` (R128): `Rand8()` is this cycle's random byte. -/
def execRnd (x : Reg) (nn : Byte) (s : State) : Host.Outcome State Fault Refusal :=
  .next (s.setV x (nn &&& s.cycle.rnd))

end Sys2Proof.Machine
end

