-- ==== Sys2Proof/Machine/Display.lean ====
section
/-!
DEFINITION. The display instructions (spec/41_display.md). Each meaning runs with `pc` already at the
instruction's address plus 2 (spec/40_cycle.md R94).
-/

namespace Sys2Proof.Machine

/-- 00E0 `CLS` (R102). -/
def execCls (s : State) : Host.Outcome State Fault Refusal :=
  .next { s with disp := Display.blank }.frameOut

/-- DXYN `DRW Vx, Vy, nibble` (R103 to R107): the origin is read before VF is written. -/
def execDrw (x y : Reg) (n : Fin 16) (s : State) : Host.Outcome State Fault Refusal :=
  let canvas := (Canvas.mk s.disp false).drawRows (originColumn (s.getV x)) (originRow (s.getV y))
    (s.spriteRows n.val)
  .next ({ s with disp := canvas.disp }.setV Reg.vf (flagByte canvas.hit)).frameOut

end Sys2Proof.Machine
end

