-- ==== Sys2Proof/Machine/Flow.lean ====
section
/-!
DEFINITION. The control-flow instructions (spec/42_flow.md). Each meaning runs with `pc` already at the
instruction's address plus 2 (spec/40_cycle.md R94).
-/

namespace Sys2Proof.Machine

/-- 00EE `RET` (R108): the last entry of the stack goes to `pc`; an empty stack faults. -/
def execRet (s : State) : Host.Outcome State Fault Refusal :=
  match s.stack.getLast? with
  | none => .next (takeFault .stackUnderflow s)
  | some a => .next { s with pc := a, stack := s.stack.dropLast }

/-- 1NNN `JP addr` (R109). -/
def execJp (nnn : Addr) (s : State) : Host.Outcome State Fault Refusal :=
  .next { s with pc := addrOperand nnn }

/-- 2NNN `CALL addr` (R110): a full stack faults; otherwise the return address is pushed. -/
def execCall (nnn : Addr) (s : State) : Host.Outcome State Fault Refusal :=
  if s.stack.length = s.params.stackDepth then .next (takeFault .stackOverflow s)
  else .next { s.push s.pc with pc := addrOperand nnn }

/-- 3XNN `SE Vx, byte` (R111). -/
def execSeByte (x : Reg) (nn : Byte) (s : State) : Host.Outcome State Fault Refusal :=
  .next (s.skipIf (s.getV x == nn))

/-- 4XNN `SNE Vx, byte` (R112). -/
def execSneByte (x : Reg) (nn : Byte) (s : State) : Host.Outcome State Fault Refusal :=
  .next (s.skipIf (s.getV x != nn))

/-- 5XY0 `SE Vx, Vy` (R113). -/
def execSeReg (x y : Reg) (s : State) : Host.Outcome State Fault Refusal :=
  .next (s.skipIf (s.getV x == s.getV y))

/-- 9XY0 `SNE Vx, Vy` (R114). -/
def execSneReg (x y : Reg) (s : State) : Host.Outcome State Fault Refusal :=
  .next (s.skipIf (s.getV x != s.getV y))

/-- BNNN `JP V0, addr` (R115). -/
def execJpV0 (nnn : Addr) (s : State) : Host.Outcome State Fault Refusal :=
  .next { s with pc := addrOperand nnn + widenByte (s.getV 0) }

end Sys2Proof.Machine
end

