-- ==== Sys2Proof/Machine/IndexMemory.lean ====
section
/-!
DEFINITION. The index-register and memory instructions (spec/44_index_memory.md). `I` is changed only
by ANNN, FX1E and FX29.
-/

namespace Sys2Proof.Machine

/-- ANNN `LD I, addr` (R130). -/
def execLdI (nnn : Addr) (s : State) : Host.Outcome State Fault Refusal :=
  .next { s with idx := addrOperand nnn }

/-- FX1E `ADD I, Vx` (R131): modulo 2^16, no flag. -/
def execAddI (x : Reg) (s : State) : Host.Outcome State Fault Refusal :=
  .next { s with idx := s.idx + widenByte (s.getV x) }

/-- FX29 `LD F, Vx` (R132). -/
def execLdF (x : Reg) (s : State) : Host.Outcome State Fault Refusal :=
  .next { s with idx := glyphAddr (s.getV x) }

/-- FX33 `LD B, Vx` (R133). -/
def execLdB (x : Reg) (s : State) : Host.Outcome State Fault Refusal :=
  .next (s.storeBytes s.idx.toNat (decimalDigits (s.getV x)))

/-- FX55 `LD [I], Vx` (R134). -/
def execStoreRegs (x : Reg) (s : State) : Host.Outcome State Fault Refusal :=
  .next (s.storeBytes s.idx.toNat (s.regsUpTo x))

/-- FX65 `LD Vx, [I]` (R135). -/
def execLoadRegs (x : Reg) (s : State) : Host.Outcome State Fault Refusal :=
  .next ((Reg.upTo x).foldl (fun t k => t.setV k (t.readByte (t.idx.toNat + k.val))) s)

end Sys2Proof.Machine
end

