-- ==== Sys2Proof/Machine/KeysTimers.lean ====
section
/-!
DEFINITION. The key and timer instructions (spec/45_keys_timers.md). Keys are read from the snapshot of
the cycle, never from the key lines.
-/

namespace Sys2Proof.Machine

/-- EX9E `SKP Vx` (R136). -/
def execSkp (x : Reg) (s : State) : Host.Outcome State Fault Refusal :=
  match s.keyOperand x with
  | none => .next (takeFault .keyRange s)
  | some held => .next (s.skipIf held)

/-- EXA1 `SKNP Vx` (R137). -/
def execSknp (x : Reg) (s : State) : Host.Outcome State Fault Refusal :=
  match s.keyOperand x with
  | none => .next (takeFault .keyRange s)
  | some held => .next (s.skipIf (!held))

/-- FX0A `LD Vx, K` (R138): with no key held the instruction is fetched again next cycle. -/
def execLdVxK (x : Reg) (s : State) : Host.Outcome State Fault Refusal :=
  match s.lowestKey with
  | none => .next s.rewind
  | some k => .next (s.setV x (BitVec.ofNat 8 k))

/-- FX07 `LD Vx, DT` (R139). -/
def execLdVxDt (x : Reg) (s : State) : Host.Outcome State Fault Refusal :=
  .next (s.setV x s.dt)

/-- FX15 `LD DT, Vx` (R140). -/
def execLdDtVx (x : Reg) (s : State) : Host.Outcome State Fault Refusal :=
  .next { s with dt := s.getV x }

/-- FX18 `LD ST, Vx` (R141): no tone in this cycle. -/
def execLdStVx (x : Reg) (s : State) : Host.Outcome State Fault Refusal :=
  .next { s with st := s.getV x }

end Sys2Proof.Machine
end

