-- ==== Sys2Proof/Machine/Cycle.lean ====
section
/-!
DEFINITION. The instruction cycle (spec/40_cycle.md R91 to R100).
-/

namespace Sys2Proof.Machine

/-- The head of a cycle (R91, R93, R94, R99): the key snapshot and the random byte are taken, the word
at `pc` is fetched, and `pc` moves past it, modulo 2^16. -/
def State.beginCycle (s : State) (keys : BitVec 16) (rnd : Byte) : State :=
  { s with
    cycle := { keys := keys, rnd := rnd, addr := s.pc, word := s.fetch s.pc.toNat }
    pc := s.pc + 2 }

/-- Decode and dispatch of the fetched word (R95, R96). -/
def State.executeFetched (s : State) : Host.Outcome State Fault Refusal :=
  match decodeBytes [highByte s.cycle.word, lowByte s.cycle.word] with
  | .ok (i, _) => exec i s
  | .error _ => .next (takeFault .unknownInstruction s)

/-- A cycle request: one instruction in phase RUN, nothing in any other phase (R91, R98). -/
def State.takeCycle (s : State) (keys : BitVec 16) (rnd : Byte) : Host.Outcome State Fault Refusal :=
  match s.phase with
  | .run => (s.beginCycle keys rnd).executeFetched
  | .load => .next s
  | .halted => .next s

end Sys2Proof.Machine
end

