-- ==== Sys2Proof/Machine/Platform.lean ====
section
/-!
DEFINITION. The steps that are no instruction cycle: the timer tick (spec/60_exceptions.md R154), and
the host's reset, load and start (spec/70_reset_and_hazards.md R166 to R168); and the outputs that are
read off the state (spec/10_state.md R49, R51).
-/

namespace Sys2Proof.Machine

/-- Decrement toward zero, saturating (R154). -/
def countDown (t : Byte) : Byte := if t.toNat > 0 then t - 1 else 0

/-- A tick request in phase RUN: both timers count down, and the tone pulses when ST was not zero
before (R154, R155). In any other phase nothing happens (R163). -/
def State.takeTick (s : State) : State :=
  match s.phase with
  | .run => { s with dt := countDown s.dt, st := countDown s.st, toneStrobe := s.st != 0 }
  | .load => s
  | .halted => s

/-- Reset in any phase (R166): the reset state of the same machine. The requests that follow in the
list are later ones (notes/assumptions/8.md). -/
def State.takeReset (s : State) : State :=
  { State.resetWith s.params with requests := s.requests }

/-- A load request (R167): in phase LOAD a byte goes to 0x200 to 0xFFF, below it is refused; it is not
subject to the font policy. -/
def State.takeLoad (s : State) (a : Addr) (b : Byte) : State :=
  match s.phase with
  | .load => if Config.inProgram a.toNat then s.writeByte a.toNat b else s
  | .run => s
  | .halted => s

/-- A start request (R168). -/
def State.takeStart (s : State) : State :=
  match s.phase with
  | .load => { s with pc := 0x0200, phase := .run }
  | .run => s
  | .halted => s

/-- The strobes are outputs of one step: every step begins with both low. -/
def State.lowerStrobes (s : State) : State := { s with frameStrobe := false, toneStrobe := false }

/-- The load requests of a program image, byte `j` to 0x200 + j (R167). -/
def loadRequests (image : List Byte) : List Request :=
  (List.range image.length).map fun j =>
    .load (BitVec.ofNat 12 (Config.progBase + j)) (image.getD j 0)

/-! ### Outputs -/

/-- `phase[1:0]` (R43, R51). -/
def State.phaseOut (s : State) : BitVec 2 :=
  match s.phase with
  | .load => 0
  | .run => 1
  | .halted => 2

/-- The number of a fault code (R142). -/
def FaultCode.number : FaultCode → BitVec 3
  | .unknownInstruction => 1
  | .stackUnderflow => 2
  | .stackOverflow => 3
  | .fontWrite => 4
  | .keyRange => 5

/-- `fault_code[2:0]`, zero while there is no fault (R51). -/
def State.faultCodeOut (s : State) : BitVec 3 :=
  match s.fault with
  | none => 0
  | some f => f.code.number

/-- `fault_word[15:0]` (R51). -/
def State.faultWordOut (s : State) : Word :=
  match s.fault with
  | none => 0
  | some f => f.word

/-- `fault_addr[15:0]` (R51). -/
def State.faultAddrOut (s : State) : Word :=
  match s.fault with
  | none => 0
  | some f => f.addr

/-- `disp[2047:0]`: pixel `D[x][y]` on bit 64·y + x (R49). -/
def State.dispOut (s : State) : BitVec 2048 :=
  BitVec.ofNat 2048 <|
    (List.range 2048).foldl (fun n k => if s.disp.pixel (k % 64) (k / 64) then n + 2 ^ k else n) 0

end Sys2Proof.Machine
end

