-- ==== Sys2Proof/Machine/Requests.lean ====
section
/-!
DEFINITION. The taking of one request of the environment as one atomic step (spec/10_state.md R45,
spec/60_exceptions.md R156, R159, R164), the idle step, and the placing of a program word.
-/

namespace Sys2Proof.Machine

/-- No request is pending: the core is idle and keeps all state (spec/60_exceptions.md R162). -/
def State.idle (s : State) : State := s.lowerStrobes

/-- One request, already removed from the list. -/
def State.takeRequest (s : State) : Request → Host.Outcome State Fault Refusal
  | .reset => .next s.lowerStrobes.takeReset
  | .load a b => .next (s.lowerStrobes.takeLoad a b)
  | .start => .next s.lowerStrobes.takeStart
  | .cycle keys rnd => s.lowerStrobes.takeCycle keys rnd
  | .tick => .next s.lowerStrobes.takeTick

/-- The core with `pc` at an instruction that can run: as it is in phase RUN, otherwise as `start`
leaves it (pc 0x200, phase RUN) with no fault. -/
def State.running (s : State) : State :=
  match s.phase with
  | .run => s
  | .load => { s with pc := 0x0200, phase := .run }
  | .halted => { s with pc := 0x0200, phase := .run, fault := none }

/-- The word `w` stored at `pc`, high byte first (spec/20_memory.md R61), and a cycle request with the
latched inputs put before the others. -/
def State.placeWord (s : State) (w : Word) : State :=
  { s.writeBytes s.pc.toNat [highByte w, lowByte w] with
    requests := .cycle s.cycle.keys s.cycle.rnd :: s.requests }

end Sys2Proof.Machine
end

