-- ==== Sys2Proof/Machine/Step.lean ====
section
/-!
DEFINITION. One step of the core, and a state whose next step runs a given instruction word.
-/

namespace Sys2Proof.Machine

/-- The first request of the environment is taken as one atomic step (spec/60_exceptions.md R158); with
none pending the core is idle. -/
def step (s : State) : Host.Outcome State Fault Refusal :=
  match s.requests with
  | [] => .next s.idle
  | r :: rest => { s with requests := rest }.takeRequest r

/-- `s` made ready to run the instruction of an opcode-table word in its very next step
(notes/assumptions/4.md). -/
def State.withFetchWord (s : State) (nbits w : Nat) : State := s.running.placeWord (tableWord nbits w)

end Sys2Proof.Machine
end

