-- ==== Sys2Proof/WellFormed.lean ====
section
/-!
DEFINITION. Well-formedness of raw data. An `Instr` carries its bounds in its types (every value of
every operand field is legal, spec/30_encoding.md R77, R78), so each term of `Instr` is well formed
and there is nothing to check on it. What can be ill formed is a raw instruction word (it matches no
row of the opcode table, R82), a choice of the open parameters (`STACK_DEPTH` is at least 1,
spec/00_scope.md R8) and a program image (it does not fit, spec/70_reset_and_hazards.md R170).
-/

namespace Sys2Proof

/-- A row of the opcode table of R80: a word `w` is the row's instruction when `w &&& mask = bits`. -/
structure Row where
  mnemonic : String
  bits : Word
  mask : Word
deriving DecidableEq, Repr

/-- `(w & mask) = match` (R80). -/
def Row.accepts (r : Row) (w : Word) : Bool := w &&& r.mask == r.bits

/-- Rows 1 to 8 and 21 of R80 stand with the rest in the order of the table. -/
def opcodeRowsFlow : List Row :=
  [⟨"CLS", 0x00E0, 0xFFFF⟩, ⟨"RET", 0x00EE, 0xFFFF⟩,
   ⟨"JP_addr", 0x1000, 0xF000⟩, ⟨"CALL_addr", 0x2000, 0xF000⟩,
   ⟨"SE_Vx__byte", 0x3000, 0xF000⟩, ⟨"SNE_Vx__byte", 0x4000, 0xF000⟩,
   ⟨"SE_Vx__Vy", 0x5000, 0xF00F⟩, ⟨"SNE_Vx__Vy", 0x9000, 0xF00F⟩]

/-- Rows 9 to 19 of R80: loads, adds and family 8. -/
def opcodeRowsAlu : List Row :=
  [⟨"LD_Vx__byte", 0x6000, 0xF000⟩, ⟨"ADD_Vx__byte", 0x7000, 0xF000⟩,
   ⟨"LD_Vx__Vy", 0x8000, 0xF00F⟩, ⟨"OR_Vx__Vy", 0x8001, 0xF00F⟩,
   ⟨"AND_Vx__Vy", 0x8002, 0xF00F⟩, ⟨"XOR_Vx__Vy", 0x8003, 0xF00F⟩,
   ⟨"ADD_Vx__Vy", 0x8004, 0xF00F⟩, ⟨"SUB_Vx__Vy", 0x8005, 0xF00F⟩,
   ⟨"SHR_Vx____Vy", 0x8006, 0xF00F⟩, ⟨"SUBN_Vx__Vy", 0x8007, 0xF00F⟩,
   ⟨"SHL_Vx____Vy", 0x800E, 0xF00F⟩]

/-- Rows 20 to 34 of R80: families A to F. -/
def opcodeRowsOther : List Row :=
  [⟨"LD_I__addr", 0xA000, 0xF000⟩, ⟨"JP_V0__addr", 0xB000, 0xF000⟩,
   ⟨"RND_Vx__byte", 0xC000, 0xF000⟩, ⟨"DRW_Vx__Vy__nibble", 0xD000, 0xF000⟩,
   ⟨"SKP_Vx", 0xE09E, 0xF0FF⟩, ⟨"SKNP_Vx", 0xE0A1, 0xF0FF⟩,
   ⟨"LD_Vx__DT", 0xF007, 0xF0FF⟩, ⟨"LD_DT__Vx", 0xF015, 0xF0FF⟩,
   ⟨"LD_ST__Vx", 0xF018, 0xF0FF⟩, ⟨"ADD_I__Vx", 0xF01E, 0xF0FF⟩,
   ⟨"LD_Vx__K", 0xF00A, 0xF0FF⟩, ⟨"LD_F__Vx", 0xF029, 0xF0FF⟩,
   ⟨"LD_B__Vx", 0xF033, 0xF0FF⟩, ⟨"LD__I___Vx", 0xF055, 0xF0FF⟩,
   ⟨"LD_Vx___I", 0xF065, 0xF0FF⟩]

/-- The complete opcode table of R80, 34 rows in its order. The decoder is not written from it, so
that their agreement is a claim. -/
def opcodeTable : List Row := opcodeRowsFlow ++ opcodeRowsAlu ++ opcodeRowsOther

/-- A raw word is an instruction when some row of R80 accepts it; otherwise it is illegal (R82). -/
def legalWord (w : Word) : Bool := opcodeTable.any fun r => r.accepts w

/-- `STACK_DEPTH` is a natural number at least 1 (R8). -/
abbrev Params.wf (p : Params) : Prop := 1 ≤ p.stackDepth

/-- A program image fits in 0x200 to 0xFFF (R170). -/
abbrev imageFits (image : List Byte) : Prop := image.length ≤ Config.progMaxLen

/-- The number (from 0) of an instruction's row in R80. -/
def Instr.rowNumber : Instr → Nat
  | .cls => 0
  | .ret => 1
  | .jp _ => 2
  | .call _ => 3
  | .seByte _ _ => 4
  | .sneByte _ _ => 5
  | .seReg _ _ => 6
  | .sneReg _ _ => 7
  | .ldByte _ _ => 8
  | .addByte _ _ => 9
  | .ldReg _ _ => 10
  | .orReg _ _ => 11
  | .andReg _ _ => 12
  | .xorReg _ _ => 13
  | .addReg _ _ => 14
  | .subReg _ _ => 15
  | .shr _ _ => 16
  | .subnReg _ _ => 17
  | .shl _ _ => 18
  | .ldI _ => 19
  | .jpV0 _ => 20
  | .rnd _ _ => 21
  | .drw _ _ _ => 22
  | .skp _ => 23
  | .sknp _ => 24
  | .ldVxDt _ => 25
  | .ldDtVx _ => 26
  | .ldStVx _ => 27
  | .addI _ => 28
  | .ldVxK _ => 29
  | .ldF _ => 30
  | .ldB _ => 31
  | .storeRegs _ => 32
  | .loadRegs _ => 33

/-- The row of R80 that an instruction belongs to. -/
def Instr.row? (i : Instr) : Option Row := opcodeTable[i.rowNumber]?

end Sys2Proof
end

