-- ==== Sys2Proof/Safety.lean ====
section
/-!
DEFINITION. The terms in which claims about the core are stated: what a run ends in, the invariant of
reachable states, what an instruction leaves unchanged, and the tables of spec/10_state.md R22, R23 and
R25.
-/

namespace Sys2Proof.Machine

/-! ### Runs and their ends -/

/-- `n` steps, ending early at a stop. -/
def runSteps : Nat → State → Host.Outcome State Fault Refusal
  | 0, s => .next s
  | n + 1, s =>
    match step s with
    | .next t => runSteps n t
    | .fault r => .fault r
    | .refused r => .refused r

/-- The end (b) of spec/40_cycle.md R101: in phase RUN the word at `pc mod 4096` is a jump to itself. -/
abbrev State.parked (s : State) : Prop :=
  s.phase = .run ∧ s.fetch s.pc.toNat = BitVec.ofNat 16 (0x1000 + s.pc.toNat % 4096)

/-- The request that the next step takes is a cycle request in phase RUN. -/
abbrev State.aboutToRun (s : State) (keys : BitVec 16) (rnd : Byte) (rest : List Request) : Prop :=
  s.phase = .run ∧ s.requests = .cycle keys rnd :: rest

/-! ### The invariant -/

/-- What holds of every state that a run from reset reaches. -/
structure State.Inv (s : State) : Prop where
  /-- the parameters are those of a machine (spec/00_scope.md R8) -/
  params : s.params.wf
  /-- memory is in canonical form -/
  memory : Memory.wf s.params s.mem
  /-- the stack holds at most `STACK_DEPTH` entries (spec/10_state.md R31) -/
  stackBound : s.stack.length ≤ s.params.stackDepth
  /-- the fault record is there exactly in phase HALTED (R42, R43) -/
  faultIffHalted : s.fault.isSome = true ↔ s.phase = .halted
  /-- under `FONT_WRITE = fault` the glyphs are as reset installed them (spec/20_memory.md R58) -/
  fontIntact : s.params.fontWrite = .fault → ∀ a, Config.inFont a = true →
    s.readByte a = resetByte s.params a
  /-- in phase LOAD only the program region of memory can differ from the reset state (R72, R167) -/
  loadMemory : s.phase = .load → ∀ a, a < Config.progBase → s.readByte a = resetByte s.params a
  /-- in phase LOAD every other element is as reset left it (R44, R163) -/
  loadState : s.phase = .load → s.pc = 0 ∧ s.idx = 0 ∧ s.stack = [] ∧ s.dt = 0 ∧ s.st = 0 ∧
    s.disp = Display.blank ∧ s.v = s.params.vReset

/-! ### Frames -/

/-- Every byte of memory reads as before. -/
abbrev SameMemory (s t : State) : Prop := ∀ a, t.readByte a = s.readByte a

/-- From `s` to `t` at most the variable registers `ks` change. -/
structure ChangesOnlyRegs (s t : State) (ks : List Reg) : Prop where
  rest : t = { s with v := t.v }
  regs : ∀ k, k ∉ ks → t.getV k = s.getV k
  memory : SameMemory s t

/-- From `s` to `t` at most `pc` changes. -/
structure ChangesOnlyPc (s t : State) : Prop where
  rest : t = { s with pc := t.pc }
  regs : ∀ k, t.getV k = s.getV k
  memory : SameMemory s t

/-- From `s` to `t` at most `I` changes. -/
structure ChangesOnlyIndex (s t : State) : Prop where
  rest : t = { s with idx := t.idx }
  regs : ∀ k, t.getV k = s.getV k
  memory : SameMemory s t

/-- From `s` to `t` at most the memory bytes at `a`, …, `a + n - 1` (modulo 4096) change. -/
structure ChangesOnlyBytes (s t : State) (a n : Nat) : Prop where
  rest : t = { s with mem := t.mem }
  regs : ∀ k, t.getV k = s.getV k
  memory : ∀ c, (∀ k < n, c % 4096 ≠ (a + k) % 4096) → t.readByte c = s.readByte c

/-- Inside a cycle, `t` is `s` after the fault `code` (spec/60_exceptions.md R143): `pc` is back at the
fetch address, the record is written, the core is halted, and nothing else differs. -/
structure Halts (code : FaultCode) (s t : State) : Prop where
  pc : t.pc = s.cycle.addr
  record : t.fault = some ⟨code, s.cycle.word, s.cycle.addr⟩
  phase : t.phase = .halted
  rest : t = { s with pc := t.pc, fault := t.fault, phase := t.phase }
  regs : ∀ k, t.getV k = s.getV k
  memory : SameMemory s t

/-- The word of `i` lies in a row of spec/30_encoding.md R80 and is decoded as `i`. -/
structure EncodedAs (i : Instr) (bits mask : Word) : Prop where
  row : encode i &&& mask = bits
  decodes : decode (encode i) = .ok i

/-! ### Words of the instruction rules -/

/-- The `n` bytes at `a` (modulo 4096) meet the font region (R58, R60). -/
abbrev meetsFont (a n : Nat) : Prop := ∃ k < n, 0x050 ≤ (a + k) % 4096 ∧ (a + k) % 4096 ≤ 0x09F

/-- A program store of `n` bytes at `a` faults in `s` (R58, R60). -/
abbrev State.storeFaults (s : State) (a n : Nat) : Prop :=
  s.params.fontWrite = .fault ∧ meetsFont a n

/-- The sprite of `DRW Vx, Vy, n` has a 1 bit at column `px`, row `py` (spec/41_display.md R103, R105):
its top left bit is at (V[x] mod 64, V[y] mod 32), its rows lie at `I`, most significant bit first. -/
def State.spriteBit (s : State) (x y : Reg) (n : Nat) (px py : Nat) : Bool :=
  let ox := (s.getV x).toNat % 64
  let oy := (s.getV y).toNat % 32
  decide (ox ≤ px ∧ px < ox + 8 ∧ oy ≤ py ∧ py < oy + n) &&
    (s.readByte (s.idx.toNat + (py - oy))).getLsbD (7 - (px - ox))

/-- The sprite has a 1 bit inside the screen on a pixel whose value is `lit`. -/
abbrev State.spriteTouches (s : State) (x y : Reg) (n : Nat) (lit : Bool) : Prop :=
  ∃ px py, px < 64 ∧ py < 32 ∧ s.spriteBit x y n px py = true ∧ s.disp.pixel px py = lit

/-- No key is held in the snapshot. -/
abbrev State.noKeyHeld (s : State) : Prop := ∀ k < 16, s.cycle.keys.getLsbD k = false

end Sys2Proof.Machine

namespace Sys2Proof

open Machine

/-! ### Tables of spec/10_state.md -/

/-- The variable registers an instruction reads (R23). -/
def Instr.regsRead : Instr → List Reg
  | .cls => []
  | .ret => []
  | .jp _ => []
  | .call _ => []
  | .seByte x _ => [x]
  | .sneByte x _ => [x]
  | .seReg x y => [x, y]
  | .sneReg x y => [x, y]
  | .ldByte _ _ => []
  | .addByte x _ => [x]
  | .ldReg _ y => [y]
  | .orReg x y => [x, y]
  | .andReg x y => [x, y]
  | .xorReg x y => [x, y]
  | .addReg x y => [x, y]
  | .subReg x y => [x, y]
  | .shr x _ => [x]
  | .subnReg x y => [x, y]
  | .shl x _ => [x]
  | .ldI _ => []
  | .jpV0 _ => [0]
  | .rnd _ _ => []
  | .drw x y _ => [x, y]
  | .skp x => [x]
  | .sknp x => [x]
  | .ldVxDt _ => []
  | .ldDtVx x => [x]
  | .ldStVx x => [x]
  | .addI x => [x]
  | .ldVxK _ => []
  | .ldF x => [x]
  | .ldB x => [x]
  | .storeRegs x => (List.finRange 16).filter fun k => k ≤ x
  | .loadRegs _ => []

/-- The variable registers an instruction writes (R23); FX0A writes V[X] only when a key is held. -/
def Instr.regsWritten (keyHeld : Bool) : Instr → List Reg
  | .cls => []
  | .ret => []
  | .jp _ => []
  | .call _ => []
  | .seByte _ _ => []
  | .sneByte _ _ => []
  | .seReg _ _ => []
  | .sneReg _ _ => []
  | .ldByte x _ => [x]
  | .addByte x _ => [x]
  | .ldReg x _ => [x]
  | .orReg x _ => [x]
  | .andReg x _ => [x]
  | .xorReg x _ => [x]
  | .addReg x _ => [x, 15]
  | .subReg x _ => [x, 15]
  | .shr x _ => [x, 15]
  | .subnReg x _ => [x, 15]
  | .shl x _ => [x, 15]
  | .ldI _ => []
  | .jpV0 _ => []
  | .rnd x _ => [x]
  | .drw _ _ _ => [15]
  | .skp _ => []
  | .sknp _ => []
  | .ldVxDt x => [x]
  | .ldDtVx _ => []
  | .ldStVx _ => []
  | .addI _ => []
  | .ldVxK x => if keyHeld then [x] else []
  | .ldF _ => []
  | .ldB _ => []
  | .storeRegs _ => []
  | .loadRegs x => (List.finRange 16).filter fun k => k ≤ x

/-- The instructions that write VF as a side effect (R22): 8XY4 to 8XY7, 8XYE, DXYN. -/
def Instr.setsFlag : Instr → Bool
  | .addReg _ _ => true
  | .subReg _ _ => true
  | .shr _ _ => true
  | .subnReg _ _ => true
  | .shl _ _ => true
  | .drw _ _ _ => true
  | .cls | .ret | .jp _ | .call _ | .seByte _ _ | .sneByte _ _ | .seReg _ _ | .sneReg _ _ => false
  | .ldByte _ _ | .addByte _ _ | .ldReg _ _ | .orReg _ _ | .andReg _ _ | .xorReg _ _ => false
  | .ldI _ | .jpV0 _ | .rnd _ _ | .skp _ | .sknp _ | .ldVxDt _ | .ldDtVx _ | .ldStVx _ => false
  | .addI _ | .ldVxK _ | .ldF _ | .ldB _ | .storeRegs _ | .loadRegs _ => false

/-- VF is a named destination (R22): X = F of a register write, or the last register of FX65. -/
def Instr.namesVf : Instr → Bool
  | .ldByte x _ => x == 15
  | .addByte x _ => x == 15
  | .ldReg x _ => x == 15
  | .orReg x _ => x == 15
  | .andReg x _ => x == 15
  | .xorReg x _ => x == 15
  | .rnd x _ => x == 15
  | .ldVxDt x => x == 15
  | .ldVxK x => x == 15
  | .loadRegs x => x == 15
  | .cls | .ret | .jp _ | .call _ | .seByte _ _ | .sneByte _ _ | .seReg _ _ | .sneReg _ _ => false
  | .addReg _ _ | .subReg _ _ | .shr _ _ | .subnReg _ _ | .shl _ _ | .drw _ _ _ => false
  | .ldI _ | .jpV0 _ | .skp _ | .sknp _ | .ldDtVx _ | .ldStVx _ => false
  | .addI _ | .ldF _ | .ldB _ | .storeRegs _ => false

/-- A skip instruction's condition (R25; spec/42_flow.md R111 to R114, spec/45_keys_timers.md R136,
R137); false for every other instruction. A key number above 0x0F names no held key. -/
def Instr.skips (i : Instr) (s : State) : Bool :=
  match i with
  | .seByte x nn => s.getV x == nn
  | .sneByte x nn => s.getV x != nn
  | .seReg x y => s.getV x == s.getV y
  | .sneReg x y => s.getV x != s.getV y
  | .skp x => decide ((s.getV x).toNat ≤ 15) && s.cycle.keys.getLsbD (s.getV x).toNat
  | .sknp x => !(decide ((s.getV x).toNat ≤ 15) && s.cycle.keys.getLsbD (s.getV x).toNat)
  | .cls | .ret | .jp _ | .call _ | .ldByte _ _ | .addByte _ _ | .ldReg _ _ | .orReg _ _ => false
  | .andReg _ _ | .xorReg _ _ | .addReg _ _ | .subReg _ _ | .shr _ _ | .subnReg _ _ | .shl _ _ => false
  | .ldI _ | .jpV0 _ | .rnd _ _ | .drw _ _ _ | .ldVxDt _ | .ldDtVx _ | .ldStVx _ => false
  | .addI _ | .ldVxK _ | .ldF _ | .ldB _ | .storeRegs _ | .loadRegs _ => false

/-- The instructions that can leave `pc` elsewhere than at the next instruction without a fault (R25): the
jumps, the call and the return, the skips, and FX0A. -/
def Instr.redirectsPc : Instr → Bool
  | .jp _ | .call _ | .jpV0 _ | .ret => true
  | .seByte _ _ | .sneByte _ _ | .seReg _ _ | .sneReg _ _ | .skp _ | .sknp _ | .ldVxK _ => true
  | .cls | .ldByte _ _ | .addByte _ _ | .ldReg _ _ | .orReg _ _ | .andReg _ _ | .xorReg _ _ => false
  | .addReg _ _ | .subReg _ _ | .shr _ _ | .subnReg _ _ | .shl _ _ | .ldI _ | .rnd _ _ => false
  | .drw _ _ _ | .ldVxDt _ | .ldDtVx _ | .ldStVx _ | .addI _ | .ldF _ | .ldB _ => false
  | .storeRegs _ | .loadRegs _ => false

/-- The value of `pc` after an instruction fetched from `p` that does not fault (R25), as a number
before the reduction modulo 2^16. -/
def Instr.pcAfter (i : Instr) (p : Nat) (s : State) : Nat :=
  if i.skips s then p + 4 else
  match i with
  | .jp nnn => nnn.toNat
  | .call nnn => nnn.toNat
  | .jpV0 nnn => nnn.toNat + (s.getV 0).toNat
  | .ret => (s.stack.getLastD 0).toNat
  | .ldVxK _ => if s.cycle.keys = 0 then p else p + 2
  | .cls | .seByte _ _ | .sneByte _ _ | .seReg _ _ | .sneReg _ _ | .ldByte _ _ | .addByte _ _ => p + 2
  | .ldReg _ _ | .orReg _ _ | .andReg _ _ | .xorReg _ _ | .addReg _ _ | .subReg _ _ | .shr _ _ => p + 2
  | .subnReg _ _ | .shl _ _ | .ldI _ | .rnd _ _ | .drw _ _ _ | .skp _ | .sknp _ | .ldVxDt _ => p + 2
  | .ldDtVx _ | .ldStVx _ | .addI _ | .ldF _ | .ldB _ | .storeRegs _ | .loadRegs _ => p + 2

/-- The one kind of fault an instruction can raise (spec/60_exceptions.md R149). -/
def Instr.faultKind : Instr → Option FaultCode
  | .ret => some .stackUnderflow
  | .call _ => some .stackOverflow
  | .ldB _ => some .fontWrite
  | .storeRegs _ => some .fontWrite
  | .skp _ => some .keyRange
  | .sknp _ => some .keyRange
  | .cls | .jp _ | .seByte _ _ | .sneByte _ _ | .seReg _ _ | .sneReg _ _ | .ldByte _ _ => none
  | .addByte _ _ | .ldReg _ _ | .orReg _ _ | .andReg _ _ | .xorReg _ _ | .addReg _ _ => none
  | .subReg _ _ | .shr _ _ | .subnReg _ _ | .shl _ _ | .ldI _ | .jpV0 _ | .rnd _ _ => none
  | .drw _ _ _ | .ldVxDt _ | .ldDtVx _ | .ldStVx _ | .addI _ | .ldVxK _ | .ldF _ | .loadRegs _ => none

end Sys2Proof
end

