-- ==== Sys2Proof/Certificates/Slice0/Obligations.lean ====
section
/-!
DEFINITION. The statements for the provers. Each is about every state and every choice of the open
parameters (`State.params`) unless it says otherwise; a rule cited is a rule of spec/.
-/

open Sys2Proof Sys2Proof.Machine

/-! ### Encoding -/

/-- Decoding an encoded instruction gives it back, for every instruction and every operand value. -/
def Obligations.DecodeOfEncodeIsTheInstruction : Prop :=
  ∀ i : Instr, decode (encode i) = .ok i

/-- A word that decodes is the encoding of the instruction it decodes to: no bit of it is lost. For 8XY6
and 8XYE with Y not 0 this is the model's choice: their constructors keep the Y field that the
instruction ignores (notes/assumptions/14.md; R87, decision D23 of the spec). -/
def Obligations.EncodeOfDecodeIsTheWord : Prop :=
  ∀ (w : Word) (i : Instr), decode w = .ok i → encode i = w

/-- The decoder, written family by family, agrees with the table of R80: a word decodes to an
instruction of a row that accepts it, and is rejected exactly when no row accepts it. -/
def Obligations.DecoderAgreesWithOpcodeTable : Prop :=
  ∀ w : Word,
    (∀ i, decode w = .ok i → ∃ r ∈ opcodeTable, i.row? = some r ∧ w &&& r.mask = r.bits) ∧
    ((∃ e, decode w = .error e) ↔ ∀ r ∈ opcodeTable, w &&& r.mask ≠ r.bits)

/-- The illegal words are those of the six families of R82, each rejected under its own name. -/
def Obligations.IllegalWordsByFamily : Prop :=
  ∀ w : Word,
    let op := w.toNat / 4096
    let n := w.toNat % 16
    let kk := w.toNat % 256
    (decode w = .error .illegalZero ↔ op = 0 ∧ w ≠ 0x00E0 ∧ w ≠ 0x00EE) ∧
    (decode w = .error .illegalFive ↔ op = 5 ∧ n ≠ 0) ∧
    (decode w = .error .illegalEight ↔ op = 8 ∧ n ∈ [0x8, 0x9, 0xA, 0xB, 0xC, 0xD, 0xF]) ∧
    (decode w = .error .illegalNine ↔ op = 9 ∧ n ≠ 0) ∧
    (decode w = .error .illegalKey ↔ op = 0xE ∧ kk ∉ [0x9E, 0xA1]) ∧
    (decode w = .error .illegalMisc ↔
      op = 0xF ∧ kk ∉ [0x07, 0x0A, 0x15, 0x18, 0x1E, 0x29, 0x33, 0x55, 0x65]) ∧
    decode w ≠ .error .tooShort

/-- The table has 34 rows, and its patterns are pairwise disjoint (R81): no word is accepted by the rows
at two different positions. -/
def Obligations.OpcodePatternsAreDisjoint : Prop :=
  opcodeTable.length = 34 ∧
  ∀ (w : Word) (i j : Nat) (hi : i < opcodeTable.length) (hj : j < opcodeTable.length), i ≠ j →
    ¬ (w &&& opcodeTable[i].mask = opcodeTable[i].bits ∧ w &&& opcodeTable[j].mask = opcodeTable[j].bits)

/-- The six fields of every word lie at the bit positions of R74. -/
def Obligations.FieldsOfEveryWord : Prop :=
  ∀ w : Word,
    (Fields.ofWord w).op.toNat = w.toNat / 4096 ∧
    (Fields.ofWord w).x.toNat = w.toNat / 256 % 16 ∧
    (Fields.ofWord w).y.toNat = w.toNat / 16 % 16 ∧
    (Fields.ofWord w).n.toNat = w.toNat % 16 ∧
    (Fields.ofWord w).nn.toNat = w.toNat % 256 ∧
    (Fields.ofWord w).nnn.toNat = w.toNat % 4096 ∧
    (Fields.ofWord w).nn = (Fields.ofWord w).y ++ (Fields.ofWord w).n ∧
    (Fields.ofWord w).nnn = (Fields.ofWord w).x ++ (Fields.ofWord w).y ++ (Fields.ofWord w).n

/-- The encoding examples of R89: words that the spec writes out, what they decode to, and the bytes of
the first one when it is stored at 0x200. (Rests on decision D2 of the spec.) -/
def Obligations.WordsOfTheSpecDecode : Prop :=
  decode 0x6010 = .ok (.ldByte 0 0x10) ∧
  decode 0x7005 = .ok (.addByte 0 0x05) ∧
  decode 0x2300 = .ok (.call 0x300) ∧
  decode 0x00EE = .ok .ret ∧
  decode 0x00E0 = .ok .cls ∧
  ∀ s : State,
    (s.writeBytes 0x200 (encodeBytes (.ldByte 0 0x10))).readByte 0x200 = 0x60 ∧
    (s.writeBytes 0x200 (encodeBytes (.ldByte 0 0x10))).readByte 0x201 = 0x10

/-! ### Memory -/

/-- Every access is to the address modulo 4096, so it never leaves memory (R55), and a read returns the
byte of the latest write to its address. (Rests on decision D4 of the spec.) -/
def Obligations.EveryAccessIsModulo4096 : Prop :=
  ∀ (s : State) (a c : Nat) (b : Byte),
    s.readByte a = s.readByte (a % 4096) ∧
    (s.writeByte a b).readByte c = (if c % 4096 = a % 4096 then b else s.readByte c) ∧
    s.writeByte a b = { s with mem := (s.writeByte a b).mem }

/-- The fetched word has the byte at the lower address in bits 15:8, each byte read modulo 4096 (R61).
(Rests on decision D2 of the spec.) -/
def Obligations.FetchIsHighByteFirst : Prop :=
  ∀ (s : State) (a : Nat),
    (s.fetch a).toNat =
      (s.readByte (a % 4096)).toNat * 256 + (s.readByte ((a + 1) % 4096)).toNat

/-- Stored bytes are seen by the next fetch (R69): after FX55, for k < X, the word at `I + k`, whose two
bytes it stored, is V[k], V[k + 1]. (Rests on decision D27 of the spec.) -/
def Obligations.StoredWordIsFetched : Prop :=
  ∀ (s : State) (x : Reg) (k : Nat) (hk : k < x.val),
    ¬ s.storeFaults s.idx.toNat (x.val + 1) →
    ∃ t, exec (.storeRegs x) s = .next t ∧
      (t.fetch (s.idx.toNat + k)).toNat =
        (s.getV ⟨k, by omega⟩).toNat * 256 + (s.getV ⟨k + 1, by omega⟩).toNat

/-! ### The cycle and the other steps -/

/-- A cycle request in phase RUN (R91): the keys and the random byte are latched, the word at `pc` is
fetched high byte first, `pc` moves past it, and the step is `exec` of the decoded instruction; a word
that is no instruction halts the core with UNKNOWN_INSTRUCTION, `pc` back at the word. (Rests on
decisions D2, the byte order, D4 and D20, the fault, of the spec, log entry 12; the latch that holds the
cycle's inputs is the model's own, notes/assumptions/5.md.) -/
def Obligations.StepRunsTheDecodedInstruction : Prop :=
  ∀ (s : State) (keys : BitVec 16) (rnd : Byte) (rest : List Request),
    s.aboutToRun keys rnd rest →
    let hi := s.readByte s.pc.toNat
    let lo := s.readByte (s.pc.toNat + 1)
    let w : Word := hi ++ lo
    let s' : State := { s with
      requests := rest
      frameStrobe := false
      toneStrobe := false
      cycle := ⟨keys, rnd, s.pc, w⟩
      pc := s.pc + 2 }
    (∀ i tail, decodeBytes [hi, lo] = .ok (i, tail) → step s = exec i s') ∧
    (∀ e, decodeBytes [hi, lo] = .error e →
      step s = .next { s' with
        pc := s.pc, fault := some ⟨.unknownInstruction, w, s.pc⟩, phase := .halted })

/-- Every step answers a next state: no access, no illegal word and no request stops the model. With no
request pending the core keeps all its state. The model's choices: a fault of the core is a next state
(notes/assumptions/9.md), and the idle step keeps the state and lowers the strobes (3.md and 6.md).
(Rests on decisions D4, no address fault, and D20, idle keeps all state, of the spec.) -/
def Obligations.EveryStepAnswersANextState : Prop :=
  ∀ s : State, (∃ t, step s = .next t) ∧
    (s.requests = [] → step s = .next { s with frameStrobe := false, toneStrobe := false })

/-- A cycle request outside phase RUN changes nothing (R98), nor does a tick request (R163). (Rests on
decisions D20, D25, D32 of the spec.) -/
def Obligations.CyclesAndTicksOutsideRunDoNothing : Prop :=
  ∀ (s : State) (r : Request) (rest : List Request),
    s.phase ≠ .run → s.requests = r :: rest →
    (r = .tick ∨ ∃ keys rnd, r = .cycle keys rnd) →
    step s = .next { s with requests := rest, frameStrobe := false, toneStrobe := false }

/-- A tick in phase RUN lowers DT and ST by one, never below zero, pulses the tone exactly when ST was
not zero, and touches nothing else (R154). That the tone is judged on ST before the decrement is
decision D18 of the spec (log entry 12). -/
def Obligations.TickCountsDownBothTimers : Prop :=
  ∀ (s : State) (rest : List Request), s.phase = .run → s.requests = .tick :: rest →
    ∃ t, step s = .next t ∧
      t.dt.toNat = s.dt.toNat - 1 ∧ t.st.toNat = s.st.toNat - 1 ∧
      (t.toneStrobe = true ↔ s.st ≠ 0) ∧
      (∀ k, t.getV k = s.getV k) ∧ SameMemory s t ∧
      t = { s with dt := t.dt, st := t.st, toneStrobe := t.toneStrobe, requests := rest,
                   frameStrobe := false }

/-- The tone is judged on ST before the decrement (R155): of any number of ticks in a row, tick number
`k` (from 0) pulses the tone exactly when `k < ST`, so exactly ST ticks pulse it. (Rests on decision D18
of the spec.) -/
def Obligations.ToneSoundsForStTicks : Prop :=
  ∀ (s : State) (k : Nat) (rest : List Request),
    s.phase = .run → s.requests = List.replicate (k + 1) .tick ++ rest →
    ∃ t, runSteps (k + 1) s = .next t ∧
      (t.toneStrobe = true ↔ k < s.st.toNat) ∧
      t.st.toNat = s.st.toNat - (k + 1) ∧ t.dt.toNat = s.dt.toNat - (k + 1) ∧
      t.requests = rest ∧ t.phase = .run

/-- Reset in any phase (R166): memory is the font and zeroes, the registers, timers, stack, display and
fault record are cleared, V is V_RESET, the phase is LOAD, and no strobe pulses. (Rests on decisions D5,
D6, D20, D25 of the spec.) The requests that stand after the reset are kept: they are later ones, and a
pending tick that reset drops (R171) is not among them, the model's deduction (notes/assumptions/8.md).
-/
def Obligations.ResetClearsTheCore : Prop :=
  ∀ (s : State) (rest : List Request), s.requests = .reset :: rest →
    ∃ t, step s = .next t ∧
      (∀ k : Fin 80, t.readByte (0x050 + k.val) = s.params.font[k.val]) ∧
      (∀ a, a < 4096 → ¬ (0x050 ≤ a ∧ a ≤ 0x09F) → t.readByte a = 0) ∧
      t.pc = 0 ∧ t.idx = 0 ∧ t.dt = 0 ∧ t.st = 0 ∧ t.stack = [] ∧
      (∀ px py, t.disp.pixel px py = false) ∧
      (∀ k : Reg, t.getV k = s.params.vReset[k.val]) ∧
      t.fault = none ∧ t.phase = .load ∧ t.frameStrobe = false ∧ t.toneStrobe = false ∧
      t.params = s.params ∧ t.requests = rest

/-- The state after reset (R44) for any parameters, and that start then sets `pc` to 0x0200 before the
first fetch. (Rests on decisions D5, D6, D20, D25 of the spec.) -/
def Obligations.StateAfterReset : Prop :=
  ∀ p : Params,
    (∀ k : Fin 80, (State.resetWith p).readByte (0x050 + k.val) = p.font[k.val]) ∧
    (∀ a, a < 4096 → ¬ (0x050 ≤ a ∧ a ≤ 0x09F) → (State.resetWith p).readByte a = 0) ∧
    (State.resetWith p).pc = 0 ∧ (State.resetWith p).idx = 0 ∧
    (State.resetWith p).dt = 0 ∧ (State.resetWith p).st = 0 ∧ (State.resetWith p).stack = [] ∧
    (∀ px py, (State.resetWith p).disp.pixel px py = false) ∧
    (∀ k : Reg, (State.resetWith p).getV k = p.vReset[k.val]) ∧
    (State.resetWith p).phase = .load ∧ (State.resetWith p).fault = none ∧
    ∀ rest, ∃ t, step { State.resetWith p with requests := .start :: rest } = .next t ∧
      t.pc = 0x0200 ∧ t.phase = .run

/-- `State.reset` is the reset state at the default parameters of R8, which the spec chooses where its
source is silent (D6 to D10, D15), with the glyph bytes of R40, glyph `g`, row `r` at 0x050 + 5g + r:
the model's choice of a machine, notes/assumptions/1.md, 2.md and 11.md. -/
def Obligations.ResetTakesTheDefaultParameters : Prop :=
  let glyphs : Vector (Vector Byte 5) 16 :=
    #v[#v[0xF0, 0x90, 0x90, 0x90, 0xF0], #v[0x20, 0x60, 0x20, 0x20, 0x70],
       #v[0xF0, 0x10, 0xF0, 0x80, 0xF0], #v[0xF0, 0x10, 0xF0, 0x10, 0xF0],
       #v[0x90, 0x90, 0xF0, 0x10, 0x10], #v[0xF0, 0x80, 0xF0, 0x10, 0xF0],
       #v[0xF0, 0x80, 0xF0, 0x90, 0xF0], #v[0xF0, 0x10, 0x20, 0x40, 0x40],
       #v[0xF0, 0x90, 0xF0, 0x90, 0xF0], #v[0xF0, 0x90, 0xF0, 0x10, 0xF0],
       #v[0xF0, 0x90, 0xF0, 0x90, 0x90], #v[0xE0, 0x90, 0xE0, 0x90, 0xE0],
       #v[0xF0, 0x80, 0x80, 0x80, 0xF0], #v[0xE0, 0x90, 0x90, 0x90, 0xE0],
       #v[0xF0, 0x80, 0xF0, 0x80, 0xF0], #v[0xF0, 0x80, 0xF0, 0x80, 0x80]]
  State.reset = State.resetWith Params.default ∧
  State.reset.params.stackDepth = 16 ∧ (∀ k : Reg, State.reset.getV k = 0) ∧
  State.reset.params.fontWrite = .fault ∧ State.reset.params.keyRange = .fault ∧
  State.reset.params.vfShiftOrder = .sequential ∧
  ∀ (g : Fin 16) (r : Fin 5),
    State.reset.params.font[5 * g.val + r.val] = glyphs[g.val][r.val] ∧
    State.reset.readByte (0x050 + 5 * g.val + r.val) = glyphs[g.val][r.val]

/-- The loader writes one byte, only in phase LOAD and only at 0x200 to 0xFFF; any other load request
changes nothing (R72). (Rests on decision D25 of the spec.) -/
def Obligations.LoaderWritesOnlyTheProgramRegion : Prop :=
  ∀ (s : State) (a : Addr) (b : Byte) (rest : List Request), s.requests = .load a b :: rest →
    ∃ t, step s = .next t ∧
      (∀ c, t.readByte c =
        if s.phase = .load ∧ 0x200 ≤ a.toNat ∧ c % 4096 = a.toNat then b else s.readByte c) ∧
      t = { s with mem := t.mem, requests := rest, frameStrobe := false, toneStrobe := false }

/-- Loading an image that fits and then starting (R167, R168, R169): every byte of the image stands at
0x200 + j, every other byte is as before, and the core is in phase RUN at 0x200. (Rests on decisions D5,
D25 of the spec.) -/
def Obligations.LoadedImageStandsInMemory : Prop :=
  ∀ (s : State) (image : List Byte) (rest : List Request),
    s.phase = .load → imageFits image → s.requests = loadRequests image ++ .start :: rest →
    ∃ t, runSteps (image.length + 1) s = .next t ∧
      (∀ (j : Nat) (hj : j < image.length), t.readByte (0x200 + j) = image[j]) ∧
      (∀ a, (∀ j < image.length, a % 4096 ≠ 0x200 + j) → t.readByte a = s.readByte a) ∧
      t = { s with mem := t.mem, pc := 0x0200, phase := .run, requests := rest,
                   frameStrobe := false, toneStrobe := false }

/-- Start in phase LOAD sets `pc` to 0x0200 and the phase to RUN and changes nothing else; in any other
phase it does nothing (R168). (Rests on decisions D5, D31 of the spec.) -/
def Obligations.StartSetsTheEntryPoint : Prop :=
  ∀ (s : State) (rest : List Request), s.requests = .start :: rest →
    (s.phase = .load → step s = .next { s with
      pc := 0x0200, phase := .run, requests := rest, frameStrobe := false, toneStrobe := false }) ∧
    (s.phase ≠ .load → step s = .next { s with
      requests := rest, frameStrobe := false, toneStrobe := false })

/-! ### Faults -/

/-- The status outputs (R51, with the phase numbers of R43 and the fault codes of R142): zero while
there is no fault, otherwise the record's code number, word and address. (Rests on decision D20 of the
spec.) -/
def Obligations.StatusOutputsShowTheRecord : Prop :=
  ∀ s : State,
    (s.phaseOut = match s.phase with | .load => 0 | .run => 1 | .halted => 2) ∧
    (s.fault = none → s.faultCodeOut = 0 ∧ s.faultWordOut = 0 ∧ s.faultAddrOut = 0) ∧
    (∀ c w a, s.fault = some ⟨c, w, a⟩ →
      s.faultWordOut = w ∧ s.faultAddrOut = a ∧
      s.faultCodeOut = match c with
        | .unknownInstruction => 1
        | .stackUnderflow => 2
        | .stackOverflow => 3
        | .fontWrite => 4
        | .keyRange => 5)

/-- The display output (R49): pixel (x, y) is bit 64·y + x. (Rests on decision D24 of the spec.) -/
def Obligations.DisplayOutputShowsEveryPixel : Prop :=
  ∀ (s : State) (x y : Nat), x < 64 → y < 32 →
    s.dispOut.getLsbD (64 * y + x) = s.disp.pixel x y

/-- A fault is precise (R143): when a cycle leaves phase RUN, the state is the state before the cycle
except for the phase, which is HALTED, and the fault record, which holds a code, the fetched word and
`pc`; no strobe pulses. (The request is taken and the cycle's latches hold its inputs.) (Rests on
decision D20 of the spec.) -/
def Obligations.FaultLeavesTheStateBeforeTheCycle : Prop :=
  ∀ (s t : State) (keys : BitVec 16) (rnd : Byte) (rest : List Request),
    s.aboutToRun keys rnd rest → step s = .next t → t.phase ≠ .run →
    ∃ code, t = { s with
      requests := rest
      frameStrobe := false
      toneStrobe := false
      cycle := ⟨keys, rnd, s.pc, s.fetch s.pc.toNat⟩
      fault := some ⟨code, s.fetch s.pc.toNat, s.pc⟩
      phase := .halted }

/-- UNKNOWN_INSTRUCTION is raised by the dispatch of every illegal word and by nothing else, and records
the whole word and the address it was fetched from (R144). -/
def Obligations.UnknownInstructionExactlyOnIllegalWords : Prop :=
  ∀ s t : State, s.fault = none → step s = .next t →
    ((∃ w a, t.fault = some ⟨.unknownInstruction, w, a⟩) ↔
      (∃ keys rnd rest, s.aboutToRun keys rnd rest) ∧
        ∀ r ∈ opcodeTable, s.fetch s.pc.toNat &&& r.mask ≠ r.bits) ∧
    (∀ w a, t.fault = some ⟨.unknownInstruction, w, a⟩ → w = s.fetch s.pc.toNat ∧ a = s.pc)

/-- An instruction either keeps the phase and the fault record or raises the one kind of fault that its
rule names (R149). (Rests on decisions D20, D21 of the spec.) -/
def Obligations.EachInstructionRaisesOneKind : Prop :=
  ∀ (i : Instr) (s t : State), exec i s = .next t →
    (t.phase = s.phase ∧ t.fault = s.fault) ∨ ∃ c, i.faultKind = some c ∧ Halts c s t

/-- The fault record is written when the core enters HALTED, and afterwards only reset clears or changes
it (R165). (Rests on decision D20 of the spec.) -/
def Obligations.FaultRecordIsWrittenOnce : Prop :=
  ∀ s t : State, (s.fault.isSome = true ↔ s.phase = .halted) → step s = .next t →
    (∀ f, s.fault = some f → s.requests.head? ≠ some .reset → t.fault = some f ∧ t.phase = .halted) ∧
    (∀ f, s.fault = none → t.fault = some f → s.phase = .run ∧ t.phase = .halted)

/-! ### Whole-machine rules -/

/-- The registers an instruction reads and writes are those of the table R23: every other register is
unchanged, and two states that agree on everything but registers outside the read column give the same
outcome but for those registers. -/
def Obligations.RegisterTableIsKept : Prop :=
  ∀ (i : Instr) (s t : State), exec i s = .next t →
    let written := i.regsWritten (decide (s.cycle.keys ≠ 0))
    (∀ k, k ∉ written → t.getV k = s.getV k) ∧
    (∀ v : Vector Byte 16, (∀ k ∈ i.regsRead, v[k.val] = s.getV k) →
      ∃ t', exec i { s with v := v } = .next t' ∧
        t' = { t with v := t'.v } ∧ (∀ k ∈ written, t'.getV k = t.getV k) ∧
        ∀ k, k ∉ written → t'.getV k = v[k.val])

/-- VF is written as a side effect by 8XY4, 8XY5, 8XY6, 8XY7, 8XYE and DXYN only; any other instruction
that changes it names it as its destination (R22). -/
def Obligations.VfIsWrittenOnlyByFlagInstructions : Prop :=
  ∀ (i : Instr) (s t : State), exec i s = .next t → t.getV 15 ≠ s.getV 15 →
    i.setsFlag = true ∨ i.namesVf = true

/-- How each instruction leaves `pc` (R25): the value of the table, modulo 2^16, or the instruction's
own address when it faults. (Rests on decisions D4, D20 of the spec.) -/
def Obligations.PcAfterEachInstruction : Prop :=
  ∀ (i : Instr) (s t : State), s.phase = .run → s.pc = s.cycle.addr + 2 → exec i s = .next t →
    (t.phase = .run → t.pc.toNat = i.pcAfter s.cycle.addr.toNat s % 65536) ∧
    (t.phase ≠ .run → t.pc = s.cycle.addr)

/-- Which instructions can change each state element: a variable register only those that R23 names;
`pc`, beyond the fetch increment, only the jumps, the skips, FX0A and a fault (R25); `I` only ANNN,
FX1E, FX29 (R28); the stack only 2NNN and 00EE (R30); DT only FX15 and ST only FX18 (R32, R33); the
display and the frame strobe only 00E0 and DXYN (R34, R107); memory only FX33 and FX55 (R54); the phase
and the fault record only an instruction that raises its one kind of fault (R149); the tone strobe, the
parameters, the pending requests and the cycle's inputs none. (Rests on decisions D4, D14, D17, D20 of
the spec.) -/
def Obligations.EachStateElementHasItsWriters : Prop :=
  ∀ (i : Instr) (s t : State), exec i s = .next t →
    (∀ k, t.getV k ≠ s.getV k → k ∈ i.regsWritten (decide (s.cycle.keys ≠ 0))) ∧
    (t.pc ≠ s.pc → i.redirectsPc = true ∨ ∃ c, i.faultKind = some c ∧ Halts c s t) ∧
    (t.idx ≠ s.idx → (∃ n, i = .ldI n) ∨ (∃ x, i = .addI x) ∨ (∃ x, i = .ldF x)) ∧
    (t.stack ≠ s.stack → (∃ n, i = .call n) ∨ i = .ret) ∧
    (t.dt ≠ s.dt → ∃ x, i = .ldDtVx x) ∧
    (t.st ≠ s.st → ∃ x, i = .ldStVx x) ∧
    (t.disp ≠ s.disp → i = .cls ∨ ∃ x y n, i = .drw x y n) ∧
    (t.mem ≠ s.mem → (∃ x, i = .ldB x) ∨ ∃ x, i = .storeRegs x) ∧
    (t.phase ≠ s.phase → ∃ c, i.faultKind = some c ∧ t.phase = .halted) ∧
    (t.fault ≠ s.fault →
      ∃ c, i.faultKind = some c ∧ t.fault = some ⟨c, s.cycle.word, s.cycle.addr⟩) ∧
    (t.frameStrobe ≠ s.frameStrobe → i = .cls ∨ ∃ x y n, i = .drw x y n) ∧
    t.toneStrobe = s.toneStrobe ∧
    t.params = s.params ∧ t.requests = s.requests ∧ t.cycle = s.cycle

/-- DT rises in a step only when that step runs FX15 (R174). -/
def Obligations.DelayTimerRisesOnlyByItsLoad : Prop :=
  ∀ s t : State, step s = .next t → s.dt.toNat < t.dt.toNat →
    ∃ keys rnd rest x, s.aboutToRun keys rnd rest ∧ decode (s.fetch s.pc.toNat) = .ok (.ldDtVx x)

/-- Only CXNN reads the random byte: in any other instruction it has no effect (R99). Likewise only
EX9E, EXA1 and FX0A read the key snapshot (R93). (Rests on decisions D22, D29 of the spec.) -/
def Obligations.InputsReachOnlyTheirInstructions : Prop :=
  ∀ (i : Instr) (s t : State), exec i s = .next t →
    ((∀ x nn, i ≠ .rnd x nn) → ∀ r : Byte,
      exec i { s with cycle := { s.cycle with rnd := r } } =
        .next { t with cycle := { t.cycle with rnd := r } }) ∧
    ((∀ x, i ≠ .skp x ∧ i ≠ .sknp x ∧ i ≠ .ldVxK x) → ∀ k : BitVec 16,
      exec i { s with cycle := { s.cycle with keys := k } } =
        .next { t with cycle := { t.cycle with keys := k } })

/-- The strobes of a step (R107, R155): the frame strobe pulses exactly when the step runs 00E0 or DXYN,
the tone strobe exactly when it is a tick in phase RUN that finds ST nonzero. (Rests on decisions D17,
D18 of the spec.) -/
def Obligations.StrobesPulseExactlyWhenDue : Prop :=
  ∀ s t : State, step s = .next t →
    (t.frameStrobe = true ↔ ∃ keys rnd rest, s.aboutToRun keys rnd rest ∧
      (decode (s.fetch s.pc.toNat) = .ok .cls ∨
        ∃ x y n, decode (s.fetch s.pc.toNat) = .ok (.drw x y n))) ∧
    (t.toneStrobe = true ↔
      s.phase = .run ∧ s.requests.head? = some .tick ∧ s.st ≠ 0)

/-- A parked core (R101) stays parked at the same address: a cycle brings `pc` to its value modulo 4096
and changes no other state element (the request is taken and the cycle's latches are written). R101 says
that `pc` is left unchanged; that it goes to its value modulo 4096, as 1NNN sets it, is the model's
deduction (notes/assumptions/16.md). -/
def Obligations.ParkedCoreStaysParked : Prop :=
  ∀ (s : State) (keys : BitVec 16) (rnd : Byte) (rest : List Request),
    s.parked → s.aboutToRun keys rnd rest →
    ∃ t, step s = .next t ∧ t.parked ∧ t.pc.toNat = s.pc.toNat % 4096 ∧
      (∀ k, t.getV k = s.getV k) ∧ SameMemory s t ∧
      t = { s with pc := t.pc, cycle := t.cycle, requests := rest,
                   frameStrobe := false, toneStrobe := false }

/-- Under `FONT_WRITE = fault` no instruction changes a byte of 0x050 to 0x09F (R58). (Rests on decision
D8 of the spec.) -/
def Obligations.NoInstructionChangesTheFont : Prop :=
  ∀ (i : Instr) (s t : State) (a : Nat), s.params.fontWrite = .fault → exec i s = .next t →
    0x050 ≤ a % 4096 → a % 4096 ≤ 0x09F → t.readByte a = s.readByte a

/-! ### The instructions -/

/-- 00E0 (R102): every pixel off, the frame strobe pulses, nothing else changes. (Rests on decision D17
of the spec.) -/
def Obligations.ClearDisplayBlanksEveryPixel : Prop :=
  EncodedAs .cls 0x00E0 0xFFFF ∧
  ∀ s : State, ∃ t, exec .cls s = .next t ∧
    (∀ px py, px < 64 → py < 32 → t.disp.pixel px py = false) ∧ t.frameStrobe = true ∧
    (∀ k, t.getV k = s.getV k) ∧ SameMemory s t ∧
    t = { s with disp := t.disp, frameStrobe := true }

/-- DXYN (R103 to R105): each pixel of the screen is XORed with the sprite's bit there; VF becomes 1
when a 1 bit of the sprite lands on a lit pixel of the screen, otherwise 0; the origin is taken from the
registers before VF is written; with N = 0 the display is unchanged and VF is 0. (Rests on decisions
D14, D16, D17 of the spec.) -/
def Obligations.DrawXorsTheSprite : Prop :=
  ∀ (x y : Reg) (n : Fin 16), EncodedAs (.drw x y n) 0xD000 0xF000 ∧
  ∀ s : State, ∃ t, exec (.drw x y n) s = .next t ∧
    (∀ px py, px < 64 → py < 32 →
      t.disp.pixel px py = (s.disp.pixel px py ^^ s.spriteBit x y n px py)) ∧
    (t.getV 15 = 0 ∨ t.getV 15 = 1) ∧
    (t.getV 15 = 1 ↔ s.spriteTouches x y n true) ∧
    (n = 0 → t.disp = s.disp ∧ t.getV 15 = 0) ∧
    (∀ k, k ≠ 15 → t.getV k = s.getV k) ∧ t.frameStrobe = true ∧ SameMemory s t ∧
    t = { s with disp := t.disp, v := t.v, frameStrobe := true }

/-- Drawing the same sprite twice at the same origin (R106) restores the display; the second draw sets VF
exactly when a touched pixel was off before the first, the first exactly when one was on. -/
def Obligations.DrawTwiceRestoresTheDisplay : Prop :=
  ∀ (x y : Reg) (n : Fin 16) (s t : State), exec (.drw x y n) s = .next t →
    (t.getV x).toNat % 64 = (s.getV x).toNat % 64 → (t.getV y).toNat % 32 = (s.getV y).toNat % 32 →
    ∃ u, exec (.drw x y n) t = .next u ∧
      (∀ px py, u.disp.pixel px py = s.disp.pixel px py) ∧
      (t.getV 15 = 1 ↔ s.spriteTouches x y n true) ∧
      (u.getV 15 = 1 ↔ s.spriteTouches x y n false)

/-- 00EE (R108): the last stack entry goes to `pc`; with the stack empty, STACK_UNDERFLOW. (What the
fault does rests on decision D20 of the spec, log entry 12.) -/
def Obligations.ReturnPopsTheStack : Prop :=
  EncodedAs .ret 0x00EE 0xFFFF ∧
  (∀ (s : State) (below : List Word) (a : Word), s.stack = below ++ [a] →
    ∃ t, exec .ret s = .next t ∧ t.pc = a ∧ t.stack = below ∧
      (∀ k, t.getV k = s.getV k) ∧ SameMemory s t ∧ t = { s with pc := a, stack := below }) ∧
  (∀ s : State, s.stack = [] → ∃ t, exec .ret s = .next t ∧ Halts .stackUnderflow s t)

/-- 1NNN (R109) and BNNN (R115): `pc` becomes NNN, or NNN + V0 modulo 2^16. (Rests on decisions D4, `pc`
keeps the bits above 0xFFF, and D28, V0 and not V[X], of the spec, log entry 12.) -/
def Obligations.JumpsSetThePc : Prop :=
  ∀ nnn : Addr, EncodedAs (.jp nnn) 0x1000 0xF000 ∧ EncodedAs (.jpV0 nnn) 0xB000 0xF000 ∧
  ∀ s : State,
    (∃ t, exec (.jp nnn) s = .next t ∧ t.pc.toNat = nnn.toNat ∧ ChangesOnlyPc s t) ∧
    (∃ t, exec (.jpV0 nnn) s = .next t ∧
      t.pc.toNat = (nnn.toNat + (s.getV 0).toNat) % 65536 ∧ ChangesOnlyPc s t)

/-- 2NNN (R110): the return address is pushed and `pc` becomes NNN; with `STACK_DEPTH` entries on the
stack, STACK_OVERFLOW. (Rests on decisions D7, D20 of the spec.) -/
def Obligations.CallPushesTheReturnAddress : Prop :=
  ∀ nnn : Addr, EncodedAs (.call nnn) 0x2000 0xF000 ∧
  ∀ s : State,
    (s.stack.length ≠ s.params.stackDepth → ∃ t, exec (.call nnn) s = .next t ∧
      t.stack = s.stack ++ [s.pc] ∧ t.pc.toNat = nnn.toNat ∧
      (∀ k, t.getV k = s.getV k) ∧ SameMemory s t ∧ t = { s with stack := t.stack, pc := t.pc }) ∧
    (s.stack.length = s.params.stackDepth →
      ∃ t, exec (.call nnn) s = .next t ∧ Halts .stackOverflow s t)

/-- 3XNN (R111) and 4XNN (R112): `pc` moves by 2 more, modulo 2^16, when V[X] is, or is not, NN. -/
def Obligations.SkipsOnAnImmediate : Prop :=
  ∀ (x : Reg) (nn : Byte),
    EncodedAs (.seByte x nn) 0x3000 0xF000 ∧ EncodedAs (.sneByte x nn) 0x4000 0xF000 ∧
  ∀ s : State,
    (∃ t, exec (.seByte x nn) s = .next t ∧ ChangesOnlyPc s t ∧
      t.pc.toNat = if s.getV x = nn then (s.pc.toNat + 2) % 65536 else s.pc.toNat) ∧
    (∃ t, exec (.sneByte x nn) s = .next t ∧ ChangesOnlyPc s t ∧
      t.pc.toNat = if s.getV x = nn then s.pc.toNat else (s.pc.toNat + 2) % 65536)

/-- 5XY0 (R113) and 9XY0 (R114): `pc` moves by 2 more, modulo 2^16, when V[X] and V[Y] are, or are not,
equal. -/
def Obligations.SkipsOnTwoRegisters : Prop :=
  ∀ x y : Reg, EncodedAs (.seReg x y) 0x5000 0xF00F ∧ EncodedAs (.sneReg x y) 0x9000 0xF00F ∧
  ∀ s : State,
    (∃ t, exec (.seReg x y) s = .next t ∧ ChangesOnlyPc s t ∧
      t.pc.toNat = if s.getV x = s.getV y then (s.pc.toNat + 2) % 65536 else s.pc.toNat) ∧
    (∃ t, exec (.sneReg x y) s = .next t ∧ ChangesOnlyPc s t ∧
      t.pc.toNat = if s.getV x = s.getV y then s.pc.toNat else (s.pc.toNat + 2) % 65536)

/-- 6XNN (R117): V[X] = NN. 7XNN (R118): V[X] + NN modulo 256, with no flag. -/
def Obligations.ImmediateLoadAndAdd : Prop :=
  ∀ (x : Reg) (nn : Byte),
    EncodedAs (.ldByte x nn) 0x6000 0xF000 ∧ EncodedAs (.addByte x nn) 0x7000 0xF000 ∧
  ∀ s : State,
    (∃ t, exec (.ldByte x nn) s = .next t ∧ t.getV x = nn ∧ ChangesOnlyRegs s t [x]) ∧
    (∃ t, exec (.addByte x nn) s = .next t ∧
      (t.getV x).toNat = ((s.getV x).toNat + nn.toNat) % 256 ∧ ChangesOnlyRegs s t [x])

/-- 8XY0 to 8XY3 (R119 to R122): copy, OR, AND, XOR of V[Y] into V[X], bit by bit; VF is no flag. (That
the logic operations leave VF alone is decision D15 of the spec, log entry 12.) -/
def Obligations.CopyAndLogicOfRegisters : Prop :=
  ∀ x y : Reg,
    EncodedAs (.ldReg x y) 0x8000 0xF00F ∧ EncodedAs (.orReg x y) 0x8001 0xF00F ∧
    EncodedAs (.andReg x y) 0x8002 0xF00F ∧ EncodedAs (.xorReg x y) 0x8003 0xF00F ∧
  ∀ s : State,
    (∃ t, exec (.ldReg x y) s = .next t ∧ t.getV x = s.getV y ∧ ChangesOnlyRegs s t [x]) ∧
    (∃ t, exec (.orReg x y) s = .next t ∧ ChangesOnlyRegs s t [x] ∧
      ∀ b < 8, (t.getV x).getLsbD b = ((s.getV x).getLsbD b || (s.getV y).getLsbD b)) ∧
    (∃ t, exec (.andReg x y) s = .next t ∧ ChangesOnlyRegs s t [x] ∧
      ∀ b < 8, (t.getV x).getLsbD b = ((s.getV x).getLsbD b && (s.getV y).getLsbD b)) ∧
    (∃ t, exec (.xorReg x y) s = .next t ∧ ChangesOnlyRegs s t [x] ∧
      ∀ b < 8, (t.getV x).getLsbD b = ((s.getV x).getLsbD b ^^ (s.getV y).getLsbD b))

/-- 8XY4 (R123): V[X] is the sum modulo 256 (lost when X = F), VF the carry. (Rests on decision D15 of
the spec.) -/
def Obligations.AddSetsTheCarry : Prop :=
  ∀ x y : Reg, EncodedAs (.addReg x y) 0x8004 0xF00F ∧
  ∀ s : State,
    let a := (s.getV x).toNat
    let b := (s.getV y).toNat
    ∃ t, exec (.addReg x y) s = .next t ∧ ChangesOnlyRegs s t [x, 15] ∧
      (x ≠ 15 → (t.getV x).toNat = (a + b) % 256) ∧ (t.getV 15).toNat = if a + b > 255 then 1 else 0

/-- 8XY5 (R124) and 8XY7 (R126): the difference modulo 256 (lost when X = F), VF = not borrow. (Rests on
decision D15 of the spec.) -/
def Obligations.SubtractionsSetNotBorrow : Prop :=
  ∀ x y : Reg, EncodedAs (.subReg x y) 0x8005 0xF00F ∧ EncodedAs (.subnReg x y) 0x8007 0xF00F ∧
  ∀ s : State,
    let a := (s.getV x).toNat
    let b := (s.getV y).toNat
    (∃ t, exec (.subReg x y) s = .next t ∧ ChangesOnlyRegs s t [x, 15] ∧
      (x ≠ 15 → (t.getV x).toNat = (a + 256 - b) % 256) ∧
      (t.getV 15).toNat = if a ≥ b then 1 else 0) ∧
    (∃ t, exec (.subnReg x y) s = .next t ∧ ChangesOnlyRegs s t [x, 15] ∧
      (x ≠ 15 → (t.getV x).toNat = (b + 256 - a) % 256) ∧
      (t.getV 15).toNat = if b ≥ a then 1 else 0)

/-- 8XY6 (R125) and 8XYE (R127): V[X] shifted by one, VF the bit shifted out; with X = F the final VF is
the one `VF_SHIFT_ORDER` gives; the Y field plays no part. (Rests on decisions D15, D28 of the spec.) -/
def Obligations.ShiftsByOneBit : Prop :=
  ∀ x y : Reg, EncodedAs (.shr x y) 0x8006 0xF00F ∧ EncodedAs (.shl x y) 0x800E 0xF00F ∧
  ∀ s : State,
    let a := (s.getV x).toNat
    (∀ y', exec (.shr x y') s = exec (.shr x y) s ∧ exec (.shl x y') s = exec (.shl x y) s) ∧
    (∃ t, exec (.shr x y) s = .next t ∧ ChangesOnlyRegs s t [x, 15] ∧
      (x ≠ 15 → (t.getV x).toNat = a / 2 ∧ (t.getV 15).toNat = a % 2) ∧
      (x = 15 → (t.getV 15).toNat = match s.params.vfShiftOrder with
        | .sequential => 0
        | .flagLast => a % 2
        | .latched => a / 2)) ∧
    (∃ t, exec (.shl x y) s = .next t ∧ ChangesOnlyRegs s t [x, 15] ∧
      (x ≠ 15 → (t.getV x).toNat = a * 2 % 256 ∧ (t.getV 15).toNat = a / 128) ∧
      (x = 15 → (t.getV 15).toNat = match s.params.vfShiftOrder with
        | .sequential => if a ≥ 128 then 2 else 0
        | .flagLast => a / 128
        | .latched => a * 2 % 256))

/-- CXNN (R128): V[X] is NN AND this cycle's random byte, whatever that byte is. (Rests on decision D22
of the spec.) -/
def Obligations.RandomByteUnderMask : Prop :=
  ∀ (x : Reg) (nn : Byte), EncodedAs (.rnd x nn) 0xC000 0xF000 ∧
  ∀ (s : State) (r : Byte), s.cycle.rnd = r →
    ∃ t, exec (.rnd x nn) s = .next t ∧ ChangesOnlyRegs s t [x] ∧
      ∀ b < 8, (t.getV x).getLsbD b = (nn.getLsbD b && r.getLsbD b)

/-- ANNN (R130): I = NNN. FX1E (R131): I + V[X] modulo 2^16. FX29 (R132): 0x050 + 5 × V[X], unmasked.
(Rests on decisions D12, D13 of the spec.) -/
def Obligations.IndexRegisterLoads : Prop :=
  ∀ (x : Reg) (nnn : Addr),
    EncodedAs (.ldI nnn) 0xA000 0xF000 ∧ EncodedAs (.addI x) 0xF01E 0xF0FF ∧
    EncodedAs (.ldF x) 0xF029 0xF0FF ∧
  ∀ s : State,
    (∃ t, exec (.ldI nnn) s = .next t ∧ t.idx.toNat = nnn.toNat ∧ ChangesOnlyIndex s t) ∧
    (∃ t, exec (.addI x) s = .next t ∧
      t.idx.toNat = (s.idx.toNat + (s.getV x).toNat) % 65536 ∧ ChangesOnlyIndex s t) ∧
    (∃ t, exec (.ldF x) s = .next t ∧
      t.idx.toNat = 0x050 + 5 * (s.getV x).toNat ∧ ChangesOnlyIndex s t)

/-- FX33 (R133): the hundreds, tens and ones digit of V[X] go to I, I + 1, I + 2 (modulo 4096), or the
instruction writes nothing and faults FONT_WRITE. (Rests on decisions D8, D14, D20 of the spec.) -/
def Obligations.StoresDecimalDigits : Prop :=
  ∀ x : Reg, EncodedAs (.ldB x) 0xF033 0xF0FF ∧
  ∀ s : State,
    let v := (s.getV x).toNat
    let a := s.idx.toNat
    (¬ s.storeFaults a 3 → ∃ t, exec (.ldB x) s = .next t ∧ ChangesOnlyBytes s t a 3 ∧
      (t.readByte a).toNat = v / 100 ∧ (t.readByte (a + 1)).toNat = v / 10 % 10 ∧
      (t.readByte (a + 2)).toNat = v % 10) ∧
    (s.storeFaults a 3 → ∃ t, exec (.ldB x) s = .next t ∧ Halts .fontWrite s t)

/-- FX55 (R134): V[k] goes to I + k (modulo 4096) for k in 0..X, or the instruction writes nothing and
faults FONT_WRITE. (Rests on decisions D8, D14, D20 of the spec.) -/
def Obligations.StoresRegistersFromIndex : Prop :=
  ∀ x : Reg, EncodedAs (.storeRegs x) 0xF055 0xF0FF ∧
  ∀ s : State,
    let a := s.idx.toNat
    (¬ s.storeFaults a (x.val + 1) → ∃ t, exec (.storeRegs x) s = .next t ∧
      ChangesOnlyBytes s t a (x.val + 1) ∧
      ∀ k : Reg, k ≤ x → t.readByte (a + k.val) = s.getV k) ∧
    (s.storeFaults a (x.val + 1) → ∃ t, exec (.storeRegs x) s = .next t ∧ Halts .fontWrite s t)

/-- FX65 (R135): the byte at I + k (modulo 4096) goes to V[k] for k in 0..X. (Rests on decision D14 of
the spec.) -/
def Obligations.LoadsRegistersFromIndex : Prop :=
  ∀ x : Reg, EncodedAs (.loadRegs x) 0xF065 0xF0FF ∧
  ∀ s : State, ∃ t, exec (.loadRegs x) s = .next t ∧
    (∀ k : Reg, k ≤ x → t.getV k = s.readByte (s.idx.toNat + k.val)) ∧
    ChangesOnlyRegs s t ((List.finRange 16).filter fun k => k ≤ x)

/-- EX9E (R136) and EXA1 (R137): the skip depends on key V[X] of the snapshot; a number above 0x0F
faults KEY_RANGE, or counts as not held under `KEY_RANGE = not_held`. (Rests on decisions D10, D20, D29
of the spec.) -/
def Obligations.KeySkipsReadTheSnapshot : Prop :=
  ∀ x : Reg, EncodedAs (.skp x) 0xE09E 0xF0FF ∧ EncodedAs (.sknp x) 0xE0A1 0xF0FF ∧
  ∀ s : State,
    let k := (s.getV x).toNat
    let next2 := (s.pc.toNat + 2) % 65536
    (k ≤ 15 ∨ s.params.keyRange = .notHeld →
      (∃ t, exec (.skp x) s = .next t ∧ ChangesOnlyPc s t ∧
        t.pc.toNat = if k ≤ 15 ∧ s.cycle.keys.getLsbD k = true then next2 else s.pc.toNat) ∧
      (∃ t, exec (.sknp x) s = .next t ∧ ChangesOnlyPc s t ∧
        t.pc.toNat = if k ≤ 15 ∧ s.cycle.keys.getLsbD k = true then s.pc.toNat else next2)) ∧
    (15 < k → s.params.keyRange = .fault →
      (∃ t, exec (.skp x) s = .next t ∧ Halts .keyRange s t) ∧
      (∃ t, exec (.sknp x) s = .next t ∧ Halts .keyRange s t))

/-- FX0A (R138): with no key held `pc` goes back to the instruction and nothing else changes; otherwise
V[X] is the least held key. (Rests on decision D11 of the spec.) -/
def Obligations.KeyWaitTakesTheLowestKey : Prop :=
  ∀ x : Reg, EncodedAs (.ldVxK x) 0xF00A 0xF0FF ∧
  ∀ s : State,
    (s.noKeyHeld → ∃ t, exec (.ldVxK x) s = .next t ∧ ChangesOnlyPc s t ∧
      t.pc.toNat = (s.pc.toNat + 65534) % 65536) ∧
    (∀ k < 16, s.cycle.keys.getLsbD k = true → (∀ j < k, s.cycle.keys.getLsbD j = false) →
      ∃ t, exec (.ldVxK x) s = .next t ∧ (t.getV x).toNat = k ∧ ChangesOnlyRegs s t [x])

/-- FX07 (R139), FX15 (R140) and FX18 (R141): V[X] = DT, DT = V[X], ST = V[X]; no tone. (No tone in the
cycle of FX18: decision D18 of the spec, log entry 12.) -/
def Obligations.TimerMoves : Prop :=
  ∀ x : Reg,
    EncodedAs (.ldVxDt x) 0xF007 0xF0FF ∧ EncodedAs (.ldDtVx x) 0xF015 0xF0FF ∧
    EncodedAs (.ldStVx x) 0xF018 0xF0FF ∧
  ∀ s : State,
    (∃ t, exec (.ldVxDt x) s = .next t ∧ t.getV x = s.dt ∧ ChangesOnlyRegs s t [x]) ∧
    (∃ t, exec (.ldDtVx x) s = .next t ∧ t.dt = s.getV x ∧ (∀ k, t.getV k = s.getV k) ∧
      SameMemory s t ∧ t = { s with dt := t.dt }) ∧
    (∃ t, exec (.ldStVx x) s = .next t ∧ t.st = s.getV x ∧ (∀ k, t.getV k = s.getV k) ∧
      SameMemory s t ∧ t = { s with st := t.st })

/-! ### The invariant -/

/-- The state after reset meets the invariant, for every legal choice of the open parameters. (Rests on
decisions D5, D6, D20, D25 of the spec; log entries 2 and 12.) -/
def Obligations.ResetMeetsTheInvariant : Prop :=
  ∀ p : Params, p.wf → (State.resetWith p).Inv

/-- Every step keeps the invariant: canonical memory, the stack bound (R31), the fault record present
exactly in HALTED (R42, R43), the font intact under `FONT_WRITE = fault` (R58), and in phase LOAD only
the program region changed since reset (R72, R163). (Rests on decisions D7, D8, D20, D25, D32 of the spec.)
-/
def Obligations.EveryStepKeepsTheInvariant : Prop :=
  ∀ s t : State, s.Inv → step s = .next t → t.Inv
end

