-- ==== Sys2Proof/Laws/State.lean ====
section
/-!
SUPPORT. One lemma per field per update of the state, so that no later proof unfolds a record update.
-/

namespace Sys2Proof.Machine

/-! ### `State.setV` -/

@[simp] theorem State.setV_params (s : State) (k : Reg) (b : Byte) :
    (s.setV k b).params = s.params := rfl

@[simp] theorem State.setV_mem (s : State) (k : Reg) (b : Byte) :
    (s.setV k b).mem = s.mem := rfl

@[simp] theorem State.setV_v (s : State) (k : Reg) (b : Byte) :
    (s.setV k b).v = s.v.set k.val b := rfl

@[simp] theorem State.setV_pc (s : State) (k : Reg) (b : Byte) :
    (s.setV k b).pc = s.pc := rfl

@[simp] theorem State.setV_idx (s : State) (k : Reg) (b : Byte) :
    (s.setV k b).idx = s.idx := rfl

@[simp] theorem State.setV_stack (s : State) (k : Reg) (b : Byte) :
    (s.setV k b).stack = s.stack := rfl

@[simp] theorem State.setV_dt (s : State) (k : Reg) (b : Byte) :
    (s.setV k b).dt = s.dt := rfl

@[simp] theorem State.setV_st (s : State) (k : Reg) (b : Byte) :
    (s.setV k b).st = s.st := rfl

@[simp] theorem State.setV_disp (s : State) (k : Reg) (b : Byte) :
    (s.setV k b).disp = s.disp := rfl

@[simp] theorem State.setV_phase (s : State) (k : Reg) (b : Byte) :
    (s.setV k b).phase = s.phase := rfl

@[simp] theorem State.setV_fault (s : State) (k : Reg) (b : Byte) :
    (s.setV k b).fault = s.fault := rfl

@[simp] theorem State.setV_cycle (s : State) (k : Reg) (b : Byte) :
    (s.setV k b).cycle = s.cycle := rfl

@[simp] theorem State.setV_requests (s : State) (k : Reg) (b : Byte) :
    (s.setV k b).requests = s.requests := rfl

@[simp] theorem State.setV_frameStrobe (s : State) (k : Reg) (b : Byte) :
    (s.setV k b).frameStrobe = s.frameStrobe := rfl

@[simp] theorem State.setV_toneStrobe (s : State) (k : Reg) (b : Byte) :
    (s.setV k b).toneStrobe = s.toneStrobe := rfl

/-! ### `State.writeByte` -/

@[simp] theorem State.writeByte_params (s : State) (a : Nat) (b : Byte) :
    (s.writeByte a b).params = s.params := rfl

@[simp] theorem State.writeByte_mem (s : State) (a : Nat) (b : Byte) :
    (s.writeByte a b).mem = Memory.write (resetByte s.params (reduce a)) (reduce a) b s.mem := rfl

@[simp] theorem State.writeByte_v (s : State) (a : Nat) (b : Byte) :
    (s.writeByte a b).v = s.v := rfl

@[simp] theorem State.writeByte_pc (s : State) (a : Nat) (b : Byte) :
    (s.writeByte a b).pc = s.pc := rfl

@[simp] theorem State.writeByte_idx (s : State) (a : Nat) (b : Byte) :
    (s.writeByte a b).idx = s.idx := rfl

@[simp] theorem State.writeByte_stack (s : State) (a : Nat) (b : Byte) :
    (s.writeByte a b).stack = s.stack := rfl

@[simp] theorem State.writeByte_dt (s : State) (a : Nat) (b : Byte) :
    (s.writeByte a b).dt = s.dt := rfl

@[simp] theorem State.writeByte_st (s : State) (a : Nat) (b : Byte) :
    (s.writeByte a b).st = s.st := rfl

@[simp] theorem State.writeByte_disp (s : State) (a : Nat) (b : Byte) :
    (s.writeByte a b).disp = s.disp := rfl

@[simp] theorem State.writeByte_phase (s : State) (a : Nat) (b : Byte) :
    (s.writeByte a b).phase = s.phase := rfl

@[simp] theorem State.writeByte_fault (s : State) (a : Nat) (b : Byte) :
    (s.writeByte a b).fault = s.fault := rfl

@[simp] theorem State.writeByte_cycle (s : State) (a : Nat) (b : Byte) :
    (s.writeByte a b).cycle = s.cycle := rfl

@[simp] theorem State.writeByte_requests (s : State) (a : Nat) (b : Byte) :
    (s.writeByte a b).requests = s.requests := rfl

@[simp] theorem State.writeByte_frameStrobe (s : State) (a : Nat) (b : Byte) :
    (s.writeByte a b).frameStrobe = s.frameStrobe := rfl

@[simp] theorem State.writeByte_toneStrobe (s : State) (a : Nat) (b : Byte) :
    (s.writeByte a b).toneStrobe = s.toneStrobe := rfl

/-! ### `State.push` -/

@[simp] theorem State.push_params (s : State) (a : Word) :
    (s.push a).params = s.params := rfl

@[simp] theorem State.push_mem (s : State) (a : Word) :
    (s.push a).mem = s.mem := rfl

@[simp] theorem State.push_v (s : State) (a : Word) :
    (s.push a).v = s.v := rfl

@[simp] theorem State.push_pc (s : State) (a : Word) :
    (s.push a).pc = s.pc := rfl

@[simp] theorem State.push_idx (s : State) (a : Word) :
    (s.push a).idx = s.idx := rfl

@[simp] theorem State.push_stack (s : State) (a : Word) :
    (s.push a).stack = s.stack ++ [a] := rfl

@[simp] theorem State.push_dt (s : State) (a : Word) :
    (s.push a).dt = s.dt := rfl

@[simp] theorem State.push_st (s : State) (a : Word) :
    (s.push a).st = s.st := rfl

@[simp] theorem State.push_disp (s : State) (a : Word) :
    (s.push a).disp = s.disp := rfl

@[simp] theorem State.push_phase (s : State) (a : Word) :
    (s.push a).phase = s.phase := rfl

@[simp] theorem State.push_fault (s : State) (a : Word) :
    (s.push a).fault = s.fault := rfl

@[simp] theorem State.push_cycle (s : State) (a : Word) :
    (s.push a).cycle = s.cycle := rfl

@[simp] theorem State.push_requests (s : State) (a : Word) :
    (s.push a).requests = s.requests := rfl

@[simp] theorem State.push_frameStrobe (s : State) (a : Word) :
    (s.push a).frameStrobe = s.frameStrobe := rfl

@[simp] theorem State.push_toneStrobe (s : State) (a : Word) :
    (s.push a).toneStrobe = s.toneStrobe := rfl

/-! ### `State.rewind` -/

@[simp] theorem State.rewind_params (s : State) :
    (s.rewind).params = s.params := rfl

@[simp] theorem State.rewind_mem (s : State) :
    (s.rewind).mem = s.mem := rfl

@[simp] theorem State.rewind_v (s : State) :
    (s.rewind).v = s.v := rfl

@[simp] theorem State.rewind_pc (s : State) :
    (s.rewind).pc = s.pc - 2 := rfl

@[simp] theorem State.rewind_idx (s : State) :
    (s.rewind).idx = s.idx := rfl

@[simp] theorem State.rewind_stack (s : State) :
    (s.rewind).stack = s.stack := rfl

@[simp] theorem State.rewind_dt (s : State) :
    (s.rewind).dt = s.dt := rfl

@[simp] theorem State.rewind_st (s : State) :
    (s.rewind).st = s.st := rfl

@[simp] theorem State.rewind_disp (s : State) :
    (s.rewind).disp = s.disp := rfl

@[simp] theorem State.rewind_phase (s : State) :
    (s.rewind).phase = s.phase := rfl

@[simp] theorem State.rewind_fault (s : State) :
    (s.rewind).fault = s.fault := rfl

@[simp] theorem State.rewind_cycle (s : State) :
    (s.rewind).cycle = s.cycle := rfl

@[simp] theorem State.rewind_requests (s : State) :
    (s.rewind).requests = s.requests := rfl

@[simp] theorem State.rewind_frameStrobe (s : State) :
    (s.rewind).frameStrobe = s.frameStrobe := rfl

@[simp] theorem State.rewind_toneStrobe (s : State) :
    (s.rewind).toneStrobe = s.toneStrobe := rfl

/-! ### `State.frameOut` -/

@[simp] theorem State.frameOut_params (s : State) :
    (s.frameOut).params = s.params := rfl

@[simp] theorem State.frameOut_mem (s : State) :
    (s.frameOut).mem = s.mem := rfl

@[simp] theorem State.frameOut_v (s : State) :
    (s.frameOut).v = s.v := rfl

@[simp] theorem State.frameOut_pc (s : State) :
    (s.frameOut).pc = s.pc := rfl

@[simp] theorem State.frameOut_idx (s : State) :
    (s.frameOut).idx = s.idx := rfl

@[simp] theorem State.frameOut_stack (s : State) :
    (s.frameOut).stack = s.stack := rfl

@[simp] theorem State.frameOut_dt (s : State) :
    (s.frameOut).dt = s.dt := rfl

@[simp] theorem State.frameOut_st (s : State) :
    (s.frameOut).st = s.st := rfl

@[simp] theorem State.frameOut_disp (s : State) :
    (s.frameOut).disp = s.disp := rfl

@[simp] theorem State.frameOut_phase (s : State) :
    (s.frameOut).phase = s.phase := rfl

@[simp] theorem State.frameOut_fault (s : State) :
    (s.frameOut).fault = s.fault := rfl

@[simp] theorem State.frameOut_cycle (s : State) :
    (s.frameOut).cycle = s.cycle := rfl

@[simp] theorem State.frameOut_requests (s : State) :
    (s.frameOut).requests = s.requests := rfl

@[simp] theorem State.frameOut_frameStrobe (s : State) :
    (s.frameOut).frameStrobe = true := rfl

@[simp] theorem State.frameOut_toneStrobe (s : State) :
    (s.frameOut).toneStrobe = s.toneStrobe := rfl

/-! ### `State.lowerStrobes` -/

@[simp] theorem State.lowerStrobes_params (s : State) :
    (s.lowerStrobes).params = s.params := rfl

@[simp] theorem State.lowerStrobes_mem (s : State) :
    (s.lowerStrobes).mem = s.mem := rfl

@[simp] theorem State.lowerStrobes_v (s : State) :
    (s.lowerStrobes).v = s.v := rfl

@[simp] theorem State.lowerStrobes_pc (s : State) :
    (s.lowerStrobes).pc = s.pc := rfl

@[simp] theorem State.lowerStrobes_idx (s : State) :
    (s.lowerStrobes).idx = s.idx := rfl

@[simp] theorem State.lowerStrobes_stack (s : State) :
    (s.lowerStrobes).stack = s.stack := rfl

@[simp] theorem State.lowerStrobes_dt (s : State) :
    (s.lowerStrobes).dt = s.dt := rfl

@[simp] theorem State.lowerStrobes_st (s : State) :
    (s.lowerStrobes).st = s.st := rfl

@[simp] theorem State.lowerStrobes_disp (s : State) :
    (s.lowerStrobes).disp = s.disp := rfl

@[simp] theorem State.lowerStrobes_phase (s : State) :
    (s.lowerStrobes).phase = s.phase := rfl

@[simp] theorem State.lowerStrobes_fault (s : State) :
    (s.lowerStrobes).fault = s.fault := rfl

@[simp] theorem State.lowerStrobes_cycle (s : State) :
    (s.lowerStrobes).cycle = s.cycle := rfl

@[simp] theorem State.lowerStrobes_requests (s : State) :
    (s.lowerStrobes).requests = s.requests := rfl

@[simp] theorem State.lowerStrobes_frameStrobe (s : State) :
    (s.lowerStrobes).frameStrobe = false := rfl

@[simp] theorem State.lowerStrobes_toneStrobe (s : State) :
    (s.lowerStrobes).toneStrobe = false := rfl

/-! ### `State.beginCycle` -/

@[simp] theorem State.beginCycle_params (s : State) (keys : BitVec 16) (rnd : Byte) :
    (s.beginCycle keys rnd).params = s.params := rfl

@[simp] theorem State.beginCycle_mem (s : State) (keys : BitVec 16) (rnd : Byte) :
    (s.beginCycle keys rnd).mem = s.mem := rfl

@[simp] theorem State.beginCycle_v (s : State) (keys : BitVec 16) (rnd : Byte) :
    (s.beginCycle keys rnd).v = s.v := rfl

@[simp] theorem State.beginCycle_pc (s : State) (keys : BitVec 16) (rnd : Byte) :
    (s.beginCycle keys rnd).pc = s.pc + 2 := rfl

@[simp] theorem State.beginCycle_idx (s : State) (keys : BitVec 16) (rnd : Byte) :
    (s.beginCycle keys rnd).idx = s.idx := rfl

@[simp] theorem State.beginCycle_stack (s : State) (keys : BitVec 16) (rnd : Byte) :
    (s.beginCycle keys rnd).stack = s.stack := rfl

@[simp] theorem State.beginCycle_dt (s : State) (keys : BitVec 16) (rnd : Byte) :
    (s.beginCycle keys rnd).dt = s.dt := rfl

@[simp] theorem State.beginCycle_st (s : State) (keys : BitVec 16) (rnd : Byte) :
    (s.beginCycle keys rnd).st = s.st := rfl

@[simp] theorem State.beginCycle_disp (s : State) (keys : BitVec 16) (rnd : Byte) :
    (s.beginCycle keys rnd).disp = s.disp := rfl

@[simp] theorem State.beginCycle_phase (s : State) (keys : BitVec 16) (rnd : Byte) :
    (s.beginCycle keys rnd).phase = s.phase := rfl

@[simp] theorem State.beginCycle_fault (s : State) (keys : BitVec 16) (rnd : Byte) :
    (s.beginCycle keys rnd).fault = s.fault := rfl

@[simp] theorem State.beginCycle_cycle (s : State) (keys : BitVec 16) (rnd : Byte) :
    (s.beginCycle keys rnd).cycle = ⟨keys, rnd, s.pc, s.fetch s.pc.toNat⟩ := rfl

@[simp] theorem State.beginCycle_requests (s : State) (keys : BitVec 16) (rnd : Byte) :
    (s.beginCycle keys rnd).requests = s.requests := rfl

@[simp] theorem State.beginCycle_frameStrobe (s : State) (keys : BitVec 16) (rnd : Byte) :
    (s.beginCycle keys rnd).frameStrobe = s.frameStrobe := rfl

@[simp] theorem State.beginCycle_toneStrobe (s : State) (keys : BitVec 16) (rnd : Byte) :
    (s.beginCycle keys rnd).toneStrobe = s.toneStrobe := rfl

/-! ### `takeFault` -/

@[simp] theorem takeFault_params (code : FaultCode) (s : State) :
    (takeFault code s).params = s.params := rfl

@[simp] theorem takeFault_mem (code : FaultCode) (s : State) :
    (takeFault code s).mem = s.mem := rfl

@[simp] theorem takeFault_v (code : FaultCode) (s : State) :
    (takeFault code s).v = s.v := rfl

@[simp] theorem takeFault_pc (code : FaultCode) (s : State) :
    (takeFault code s).pc = s.cycle.addr := rfl

@[simp] theorem takeFault_idx (code : FaultCode) (s : State) :
    (takeFault code s).idx = s.idx := rfl

@[simp] theorem takeFault_stack (code : FaultCode) (s : State) :
    (takeFault code s).stack = s.stack := rfl

@[simp] theorem takeFault_dt (code : FaultCode) (s : State) :
    (takeFault code s).dt = s.dt := rfl

@[simp] theorem takeFault_st (code : FaultCode) (s : State) :
    (takeFault code s).st = s.st := rfl

@[simp] theorem takeFault_disp (code : FaultCode) (s : State) :
    (takeFault code s).disp = s.disp := rfl

@[simp] theorem takeFault_phase (code : FaultCode) (s : State) :
    (takeFault code s).phase = .halted := rfl

@[simp] theorem takeFault_fault (code : FaultCode) (s : State) :
    (takeFault code s).fault = some ⟨code, s.cycle.word, s.cycle.addr⟩ := rfl

@[simp] theorem takeFault_cycle (code : FaultCode) (s : State) :
    (takeFault code s).cycle = s.cycle := rfl

@[simp] theorem takeFault_requests (code : FaultCode) (s : State) :
    (takeFault code s).requests = s.requests := rfl

@[simp] theorem takeFault_frameStrobe (code : FaultCode) (s : State) :
    (takeFault code s).frameStrobe = s.frameStrobe := rfl

@[simp] theorem takeFault_toneStrobe (code : FaultCode) (s : State) :
    (takeFault code s).toneStrobe = s.toneStrobe := rfl

/-! ### `State.skipIf`: only `pc` -/

@[simp] theorem State.skipIf_params (s : State) (taken : Bool) :
    (s.skipIf taken).params = s.params := by
  cases taken <;> rfl

@[simp] theorem State.skipIf_mem (s : State) (taken : Bool) :
    (s.skipIf taken).mem = s.mem := by
  cases taken <;> rfl

@[simp] theorem State.skipIf_v (s : State) (taken : Bool) :
    (s.skipIf taken).v = s.v := by
  cases taken <;> rfl

@[simp] theorem State.skipIf_pc (s : State) (taken : Bool) :
    (s.skipIf taken).pc = if taken then s.pc + 2 else s.pc := by
  cases taken <;> rfl

@[simp] theorem State.skipIf_idx (s : State) (taken : Bool) :
    (s.skipIf taken).idx = s.idx := by
  cases taken <;> rfl

@[simp] theorem State.skipIf_stack (s : State) (taken : Bool) :
    (s.skipIf taken).stack = s.stack := by
  cases taken <;> rfl

@[simp] theorem State.skipIf_dt (s : State) (taken : Bool) :
    (s.skipIf taken).dt = s.dt := by
  cases taken <;> rfl

@[simp] theorem State.skipIf_st (s : State) (taken : Bool) :
    (s.skipIf taken).st = s.st := by
  cases taken <;> rfl

@[simp] theorem State.skipIf_disp (s : State) (taken : Bool) :
    (s.skipIf taken).disp = s.disp := by
  cases taken <;> rfl

@[simp] theorem State.skipIf_phase (s : State) (taken : Bool) :
    (s.skipIf taken).phase = s.phase := by
  cases taken <;> rfl

@[simp] theorem State.skipIf_fault (s : State) (taken : Bool) :
    (s.skipIf taken).fault = s.fault := by
  cases taken <;> rfl

@[simp] theorem State.skipIf_cycle (s : State) (taken : Bool) :
    (s.skipIf taken).cycle = s.cycle := by
  cases taken <;> rfl

@[simp] theorem State.skipIf_requests (s : State) (taken : Bool) :
    (s.skipIf taken).requests = s.requests := by
  cases taken <;> rfl

@[simp] theorem State.skipIf_frameStrobe (s : State) (taken : Bool) :
    (s.skipIf taken).frameStrobe = s.frameStrobe := by
  cases taken <;> rfl

@[simp] theorem State.skipIf_toneStrobe (s : State) (taken : Bool) :
    (s.skipIf taken).toneStrobe = s.toneStrobe := by
  cases taken <;> rfl

/-! ### `State.writeBytes`: only `mem` -/

@[simp] theorem State.writeBytes_params (s : State) (a : Nat) (bs : List Byte) :
    (s.writeBytes a bs).params = s.params := by
  induction bs generalizing s a with
  | nil => rfl
  | cons b bs ih => simp [State.writeBytes, ih]

@[simp] theorem State.writeBytes_v (s : State) (a : Nat) (bs : List Byte) :
    (s.writeBytes a bs).v = s.v := by
  induction bs generalizing s a with
  | nil => rfl
  | cons b bs ih => simp [State.writeBytes, ih]

@[simp] theorem State.writeBytes_pc (s : State) (a : Nat) (bs : List Byte) :
    (s.writeBytes a bs).pc = s.pc := by
  induction bs generalizing s a with
  | nil => rfl
  | cons b bs ih => simp [State.writeBytes, ih]

@[simp] theorem State.writeBytes_idx (s : State) (a : Nat) (bs : List Byte) :
    (s.writeBytes a bs).idx = s.idx := by
  induction bs generalizing s a with
  | nil => rfl
  | cons b bs ih => simp [State.writeBytes, ih]

@[simp] theorem State.writeBytes_stack (s : State) (a : Nat) (bs : List Byte) :
    (s.writeBytes a bs).stack = s.stack := by
  induction bs generalizing s a with
  | nil => rfl
  | cons b bs ih => simp [State.writeBytes, ih]

@[simp] theorem State.writeBytes_dt (s : State) (a : Nat) (bs : List Byte) :
    (s.writeBytes a bs).dt = s.dt := by
  induction bs generalizing s a with
  | nil => rfl
  | cons b bs ih => simp [State.writeBytes, ih]

@[simp] theorem State.writeBytes_st (s : State) (a : Nat) (bs : List Byte) :
    (s.writeBytes a bs).st = s.st := by
  induction bs generalizing s a with
  | nil => rfl
  | cons b bs ih => simp [State.writeBytes, ih]

@[simp] theorem State.writeBytes_disp (s : State) (a : Nat) (bs : List Byte) :
    (s.writeBytes a bs).disp = s.disp := by
  induction bs generalizing s a with
  | nil => rfl
  | cons b bs ih => simp [State.writeBytes, ih]

@[simp] theorem State.writeBytes_phase (s : State) (a : Nat) (bs : List Byte) :
    (s.writeBytes a bs).phase = s.phase := by
  induction bs generalizing s a with
  | nil => rfl
  | cons b bs ih => simp [State.writeBytes, ih]

@[simp] theorem State.writeBytes_fault (s : State) (a : Nat) (bs : List Byte) :
    (s.writeBytes a bs).fault = s.fault := by
  induction bs generalizing s a with
  | nil => rfl
  | cons b bs ih => simp [State.writeBytes, ih]

@[simp] theorem State.writeBytes_cycle (s : State) (a : Nat) (bs : List Byte) :
    (s.writeBytes a bs).cycle = s.cycle := by
  induction bs generalizing s a with
  | nil => rfl
  | cons b bs ih => simp [State.writeBytes, ih]

@[simp] theorem State.writeBytes_requests (s : State) (a : Nat) (bs : List Byte) :
    (s.writeBytes a bs).requests = s.requests := by
  induction bs generalizing s a with
  | nil => rfl
  | cons b bs ih => simp [State.writeBytes, ih]

@[simp] theorem State.writeBytes_frameStrobe (s : State) (a : Nat) (bs : List Byte) :
    (s.writeBytes a bs).frameStrobe = s.frameStrobe := by
  induction bs generalizing s a with
  | nil => rfl
  | cons b bs ih => simp [State.writeBytes, ih]

@[simp] theorem State.writeBytes_toneStrobe (s : State) (a : Nat) (bs : List Byte) :
    (s.writeBytes a bs).toneStrobe = s.toneStrobe := by
  induction bs generalizing s a with
  | nil => rfl
  | cons b bs ih => simp [State.writeBytes, ih]

end Sys2Proof.Machine
end

