-- ==== Sys2Proof/Laws/Registers.lean ====
section
/-!
SUPPORT. Reading a variable register after a write, and the operand and flag operations over them.
-/

namespace Sys2Proof.Machine

/-- V[k] after V[x] was written (spec/10_state.md R21: no aliases). -/
theorem State.getV_setV (s : State) (x k : Reg) (b : Byte) :
    (s.setV x b).getV k = if k = x then b else s.getV k := by
  simp only [State.getV, State.setV_v, Vector.getElem_set, Fin.ext_iff, eq_comm]

@[simp] theorem State.getV_setV_same (s : State) (x : Reg) (b : Byte) : (s.setV x b).getV x = b := by
  simp [State.getV_setV]

theorem State.getV_setV_other (s : State) (x k : Reg) (b : Byte) (h : k ≠ x) :
    (s.setV x b).getV k = s.getV k := by
  simp [State.getV_setV, h]

/-- Two states with the same register vector read the same registers. -/
theorem State.getV_congr (s t : State) (h : s.v = t.v) (k : Reg) : s.getV k = t.getV k := by
  simp [State.getV, h]

/-- The bytes of memory do not depend on the registers. -/
@[simp] theorem State.readByte_setV (s : State) (k : Reg) (b : Byte) (a : Nat) :
    (s.setV k b).readByte a = s.readByte a := rfl

theorem Reg.mem_upTo (x k : Reg) : k ∈ Reg.upTo x ↔ k.val ≤ x.val := by
  simp [Reg.upTo]

theorem Reg.length_upTo (x : Reg) : (Reg.upTo x).length = x.val + 1 := by
  revert x; decide

theorem Reg.getElem_upTo (x : Reg) (k : Nat) (h : k < (Reg.upTo x).length) :
    ((Reg.upTo x)[k]).val = k := by
  revert k
  revert x
  decide

/-- Result, then flag: VF is the flag; V[x] is the result unless x is VF (spec/43_alu.md R123). -/
theorem State.getV_setResultThenFlag (s : State) (x k : Reg) (r f : Byte) :
    (s.setResultThenFlag x r f).getV k =
      if k = Reg.vf then f else if k = x then r else s.getV k := by
  simp [State.setResultThenFlag, State.getV_setV]

/-- The three write orders of a shift agree unless x is VF (R125, R127). -/
theorem State.getV_shiftInPlace (s : State) (x k : Reg) (flag result : Byte → Byte)
    (hx : x ≠ Reg.vf) :
    (s.shiftInPlace x flag result).getV k =
      if k = Reg.vf then flag (s.getV x) else if k = x then result (s.getV x) else s.getV k := by
  unfold State.shiftInPlace
  cases s.params.vfShiftOrder <;> simp only [State.getV_setV] <;> by_cases h : k = Reg.vf <;>
    simp_all [eq_comm]

theorem State.getV_shiftInPlace_other (s : State) (x k : Reg) (flag result : Byte → Byte)
    (hk : k ≠ x) (hf : k ≠ Reg.vf) : (s.shiftInPlace x flag result).getV k = s.getV k := by
  unfold State.shiftInPlace
  cases s.params.vfShiftOrder <;> simp [State.getV_setV, hk, hf]

/-- A shift changes nothing but the variable registers. -/
theorem State.shiftInPlace_eq (s : State) (x : Reg) (flag result : Byte → Byte) :
    s.shiftInPlace x flag result = { s with v := (s.shiftInPlace x flag result).v } := by
  unfold State.shiftInPlace
  cases s.params.vfShiftOrder <;> rfl

/-- The loop of FX65: each register of the list gets its byte, the others keep theirs. -/
theorem State.getV_loadLoop (ks : List Reg) (s : State) (k : Reg) :
    (ks.foldl (fun t k => t.setV k (t.readByte (t.idx.toNat + k.val))) s).getV k =
      if k ∈ ks then s.readByte (s.idx.toNat + k.val) else s.getV k := by
  induction ks generalizing s with
  | nil => simp
  | cons x ks ih =>
    simp only [List.foldl_cons, ih, State.readByte_setV, State.setV_idx, State.getV_setV,
      List.mem_cons]
    by_cases h : k = x <;> by_cases h' : k ∈ ks <;> simp [h, h']

/-- The loop of FX65 changes nothing but the variable registers. -/
theorem State.loadLoop_eq (ks : List Reg) (s : State) :
    (ks.foldl (fun t k => t.setV k (t.readByte (t.idx.toNat + k.val))) s) =
      { s with v := (ks.foldl (fun t k => t.setV k (t.readByte (t.idx.toNat + k.val))) s).v } := by
  induction ks generalizing s with
  | nil => rfl
  | cons x ks ih => simp only [List.foldl_cons]; rw [ih]; rfl

/-- Everything the key operand of EX9E and EXA1 can be (spec/45_keys_timers.md R136). -/
theorem State.keyOperand_cases (s : State) (x : Reg) :
    ((s.getV x).toNat ≤ 0x0F ∧ s.keyOperand x = some (s.keyHeld (s.getV x).toNat)) ∨
    (0x0F < (s.getV x).toNat ∧ s.params.keyRange = .fault ∧ s.keyOperand x = none) ∨
    (0x0F < (s.getV x).toNat ∧ s.params.keyRange = .notHeld ∧ s.keyOperand x = some false) := by
  unfold State.keyOperand
  by_cases h : (s.getV x).toNat ≤ 0x0F
  · simp [h]
  · cases hk : s.params.keyRange <;> simp [h] <;> omega

/-- Everything the key search of FX0A can answer (R138). -/
theorem State.lowestKey_cases (s : State) :
    (s.lowestKey = none ∧ ∀ k < 16, s.keyHeld k = false) ∨
    (∃ k < 16, s.lowestKey = some k ∧ s.keyHeld k = true ∧ ∀ j < k, s.keyHeld j = false) := by
  cases h : s.lowestKey with
  | none =>
    refine .inl ⟨rfl, fun k hk => ?_⟩
    simpa using List.find?_eq_none.1 h k (by simpa using hk)
  | some k =>
    obtain ⟨h1, h2, h3⟩ := List.find?_range_eq_some.1 h
    exact .inr ⟨k, by simpa using h2, rfl, h1, fun j hj => by simpa using h3 j hj⟩

end Sys2Proof.Machine
end

