-- ==== Sys2Proof/Laws/Display.lean ====
section
/-!
SUPPORT. What drawing does to a pixel and to the collision flag.
-/

namespace Sys2Proof.Machine

/-- A coordinate pair on the screen (spec/41_display.md R105). -/
abbrev onScreen (x y : Nat) : Prop := x < 64 ∧ y < 32

theorem Display.pixel_off (d : Display) (x y : Nat) (h : ¬ onScreen x y) : d.pixel x y = false := by
  simp only [Display.pixel, dif_neg h]

theorem Display.pixel_blank (x y : Nat) : Display.blank.pixel x y = false := by
  simp [Display.pixel, Display.blank]

/-- Toggling inverts one pixel of the screen and no other. -/
theorem Display.pixel_toggle (d : Display) (x y px py : Nat) :
    (d.toggle x y).pixel px py =
      (d.pixel px py ^^ decide (onScreen px py ∧ px = x ∧ py = y)) := by
  by_cases h : onScreen x y
  · by_cases hp : onScreen px py
    · simp only [Display.toggle, Display.pixel, dif_pos h, dif_pos hp, Vector.getElem_set]
      by_cases hy : y = py
      · subst hy
        simp only [if_true, Vector.getElem_set]
        by_cases hx : x = px
        · subst hx; simp [h]
        · have : px ≠ x := fun e => hx e.symm
          simp [hx, this]
      · have : py ≠ y := fun e => hy e.symm
        simp [hy, this]
    · simp [Display.pixel_off _ _ _ hp, hp]
  · have : ¬ (onScreen px py ∧ px = x ∧ py = y) := by rintro ⟨hp, rfl, rfl⟩; exact h hp
    rw [decide_eq_false this]
    simp only [Display.toggle, dif_neg h, Bool.xor_false]

/-- The 1 bits of a sprite row of `n` leading bits whose leftmost bit is at column `ox` of row `y`. -/
def rowBit (b : Byte) (n ox y px py : Nat) : Bool :=
  decide (ox ≤ px ∧ px < ox + n ∧ py = y) && b.getLsbD (7 - (px - ox))

theorem rowBit_zero (b : Byte) (ox y px py : Nat) : rowBit b 0 ox y px py = false := by
  have : ¬ (ox ≤ px ∧ px < ox + 0 ∧ py = y) := by omega
  simp only [rowBit, decide_eq_false this, Bool.false_and]

@[simp] theorem Canvas.plot_disp (c : Canvas) (x y : Nat) : (c.plot x y).disp = c.disp.toggle x y := rfl

@[simp] theorem Canvas.plot_hit (c : Canvas) (x y : Nat) :
    (c.plot x y).hit = (c.hit || c.disp.pixel x y) := rfl

/-- The loop over the first `n` bits of a sprite row. -/
theorem Canvas.drawBits (c : Canvas) (ox y : Nat) (b : Byte) (n : Nat) :
    let r := (List.range n).foldl (fun c k => if b.getLsbD (7 - k) then c.plot (ox + k) y else c) c
    (∀ px py, r.disp.pixel px py =
      (c.disp.pixel px py ^^ (decide (onScreen px py) && rowBit b n ox y px py))) ∧
    (r.hit = true ↔ c.hit = true ∨ ∃ px py, rowBit b n ox y px py = true ∧ c.disp.pixel px py = true) := by
  induction n with
  | zero => simp [rowBit_zero]
  | succ n ih =>
    obtain ⟨ihp, ihh⟩ := ih
    have step : ∀ px py, rowBit b (n + 1) ox y px py =
        (rowBit b n ox y px py || (decide (px = ox + n ∧ py = y) && b.getLsbD (7 - n))) := by
      intro px py
      by_cases h : px = ox + n ∧ py = y
      · obtain ⟨rfl, rfl⟩ := h
        simp [rowBit]
      · have : (ox ≤ px ∧ px < ox + (n + 1) ∧ py = y) ↔ (ox ≤ px ∧ px < ox + n ∧ py = y) := by omega
        simp [rowBit, this, h]
    have disj : ∀ px py, px = ox + n ∧ py = y → rowBit b n ox y px py = false := by
      rintro px py ⟨rfl, rfl⟩
      simp [rowBit]
    simp only [List.range_succ, List.foldl_append, List.foldl_cons, List.foldl_nil]
    generalize (List.range n).foldl _ c = r at ihp ihh
    by_cases hb : b.getLsbD (7 - n) = true
    · simp only [if_pos hb, Canvas.plot_disp, Canvas.plot_hit]
      refine ⟨fun px py => ?_, ?_⟩
      · rw [Display.pixel_toggle, ihp, step, hb]
        by_cases h : px = ox + n ∧ py = y
        · obtain ⟨rfl, rfl⟩ := h
          rw [disj _ _ ⟨rfl, rfl⟩]
          by_cases hs : onScreen (ox + n) py <;> simp [hs]
        · simp [h]
      · rw [Bool.or_eq_true, ihh, ihp, disj _ _ ⟨rfl, rfl⟩]
        simp only [step, hb, Bool.and_true, Bool.and_false, Bool.xor_false, Bool.or_eq_true,
          decide_eq_true_eq]
        constructor
        · rintro ((h | ⟨px, py, h1, h2⟩) | h)
          · exact .inl h
          · exact .inr ⟨px, py, .inl h1, h2⟩
          · exact .inr ⟨_, _, .inr ⟨rfl, rfl⟩, h⟩
        · rintro (h | ⟨px, py, h1 | ⟨rfl, rfl⟩, h2⟩)
          · exact .inl (.inl h)
          · exact .inl (.inr ⟨px, py, h1, h2⟩)
          · exact .inr h2
    · simp only [step, Bool.eq_false_iff.2 hb, Bool.and_false, Bool.or_false]
      exact ⟨ihp, ihh⟩

/-- The 1 bits of a sprite of rows `rows` whose top left bit is at (`ox`, `oy`). -/
def rowsBit (rows : List Byte) (ox oy px py : Nat) : Bool :=
  decide (ox ≤ px ∧ px < ox + 8 ∧ oy ≤ py ∧ py < oy + rows.length) &&
    (rows.getD (py - oy) 0).getLsbD (7 - (px - ox))

theorem rowsBit_cons (b : Byte) (rows : List Byte) (ox oy px py : Nat) :
    rowsBit (b :: rows) ox oy px py =
      (rowBit b 8 ox oy px py || rowsBit rows ox (oy + 1) px py) := by
  by_cases h : py = oy
  · subst h
    simp [rowBit, rowsBit]
  · have h1 : ¬ (ox ≤ px ∧ px < ox + 8 ∧ py = oy) := by omega
    have h2 : (ox ≤ px ∧ px < ox + 8 ∧ oy ≤ py ∧ py < oy + (b :: rows).length) ↔
        (ox ≤ px ∧ px < ox + 8 ∧ oy + 1 ≤ py ∧ py < oy + 1 + rows.length) := by
      simp only [List.length_cons]; omega
    by_cases h3 : ox ≤ px ∧ px < ox + 8 ∧ oy + 1 ≤ py ∧ py < oy + 1 + rows.length
    · obtain ⟨k, hk⟩ : ∃ k, py = oy + 1 + k := ⟨py - (oy + 1), by omega⟩
      subst hk
      have e1 : oy + 1 + k - oy = k + 1 := by omega
      have e2 : oy + 1 + k - (oy + 1) = k := by omega
      simp only [rowBit, rowsBit, h1, h2, decide_false, Bool.false_and, Bool.false_or, e1, e2,
        List.getD_cons_succ]
    · simp only [rowBit, rowsBit, h1, h2, h3, decide_false, Bool.false_and, Bool.or_false]

theorem rowBit_rowsBit (b : Byte) (rows : List Byte) (ox oy px py : Nat)
    (h : rowBit b 8 ox oy px py = true) : rowsBit rows ox (oy + 1) px py = false := by
  simp only [rowBit, Bool.and_eq_true, decide_eq_true_eq] at h
  have : ¬ (ox ≤ px ∧ px < ox + 8 ∧ oy + 1 ≤ py ∧ py < oy + 1 + rows.length) := by omega
  simp only [rowsBit, decide_eq_false this, Bool.false_and]

/-- What drawing a sprite does (R103, R105, R106): each pixel of the screen is toggled exactly where
the sprite has a 1 bit, and the flag is set exactly when such a bit lands on a pixel that was lit. -/
theorem Canvas.drawRows_spec (rows : List Byte) (c : Canvas) (ox oy : Nat) :
    (∀ px py, (c.drawRows ox oy rows).disp.pixel px py =
      (c.disp.pixel px py ^^ (decide (onScreen px py) && rowsBit rows ox oy px py))) ∧
    ((c.drawRows ox oy rows).hit = true ↔
      c.hit = true ∨ ∃ px py, rowsBit rows ox oy px py = true ∧ c.disp.pixel px py = true) := by
  induction rows generalizing c oy with
  | nil =>
    have : ∀ px py, rowsBit [] ox oy px py = false := by
      simp [rowsBit]
    simp [Canvas.drawRows, this]
  | cons b rows ih =>
    obtain ⟨hp, hh⟩ := Canvas.drawBits c ox oy b 8
    obtain ⟨ihp, ihh⟩ := ih (c.drawRow ox oy b) (oy + 1)
    have hp' : ∀ px py, (c.drawRow ox oy b).disp.pixel px py = _ := hp
    refine ⟨fun px py => ?_, ?_⟩
    · rw [Canvas.drawRows, ihp, hp', rowsBit_cons]
      by_cases h : rowBit b 8 ox oy px py = true
      · simp [h, rowBit_rowsBit _ rows _ _ _ _ h]
      · simp [Bool.eq_false_iff.2 h]
    · rw [Canvas.drawRows, ihh]
      have hh' : (c.drawRow ox oy b).hit = true ↔ _ := hh
      rw [hh', or_assoc]
      refine or_congr_right ?_
      constructor
      · rintro (⟨px, py, h1, h2⟩ | ⟨px, py, h1, h2⟩)
        · exact ⟨px, py, by simp [rowsBit_cons, h1], h2⟩
        · refine ⟨px, py, by simp [rowsBit_cons, h1], ?_⟩
          rw [hp'] at h2
          have : ¬ rowBit b 8 ox oy px py = true := fun h => by
            simp [rowBit_rowsBit _ rows _ _ _ _ h] at h1
          simpa [Bool.eq_false_iff.2 this] using h2
      · rintro ⟨px, py, h1, h2⟩
        rw [rowsBit_cons, Bool.or_eq_true] at h1
        rcases h1 with h1 | h1
        · exact .inl ⟨px, py, h1, h2⟩
        · refine .inr ⟨px, py, h1, ?_⟩
          have : ¬ rowBit b 8 ox oy px py = true := fun h => by
            simp [rowBit_rowsBit _ rows _ _ _ _ h] at h1
          rw [hp']
          simpa [Bool.eq_false_iff.2 this] using h2

end Sys2Proof.Machine
end

