-- ==== Sys2Proof/Laws/Encoding.lean ====
section
/-!
SUPPORT. The fields of a packed word (spec/30_encoding.md R74, R76), and the two bytes of a word.
-/

namespace Sys2Proof

@[simp] theorem nibbleToFin_finToNibble (x : Fin 16) : nibbleToFin (finToNibble x) = x := rfl

@[simp] theorem finToNibble_nibbleToFin (b : BitVec 4) : finToNibble (nibbleToFin b) = b := rfl

/-- A word is its two bytes put together again (R61). -/
theorem wordOfBytes_highByte_lowByte (w : Word) : wordOfBytes (highByte w) (lowByte w) = w := by
  refine BitVec.eq_of_getLsbD_eq fun i hi => ?_
  simp only [wordOfBytes, highByte, lowByte, BitVec.getLsbD_append, BitVec.getLsbD_extractLsb']
  by_cases h : i < 8
  · simp [h]
  · have e : 8 + (i - 8) = i := by omega
    have : i - 8 < 8 := by omega
    simp [h, this, e]

theorem highByte_wordOfBytes (a b : Byte) : highByte (wordOfBytes a b) = a := by
  ext i hi
  simp only [wordOfBytes, highByte, BitVec.getElem_extractLsb', BitVec.getLsbD_append]
  have : ¬ 8 + i < 8 := by omega
  simp [BitVec.getLsbD_eq_getElem hi]

theorem lowByte_wordOfBytes (a b : Byte) : lowByte (wordOfBytes a b) = b := by
  ext i hi
  simp only [wordOfBytes, lowByte, BitVec.getElem_extractLsb', BitVec.getLsbD_append]
  simp [hi]

section
variable (op : BitVec 4) (x y : Reg) (n : BitVec 4) (nn : Byte) (nnn : Addr)

theorem fields_packNNN :
    (Fields.ofWord (packNNN op nnn)).op = op ∧ (Fields.ofWord (packNNN op nnn)).nnn = nnn := by
  constructor
  · ext i hi
    simp only [Fields.ofWord, packNNN, BitVec.getElem_extractLsb', BitVec.getLsbD_append]
    simp [BitVec.getLsbD_eq_getElem hi]
  · ext i hi
    simp only [Fields.ofWord, packNNN, BitVec.getElem_extractLsb', BitVec.getLsbD_append]
    simp [hi]

theorem fields_packXNN :
    (Fields.ofWord (packXNN op x nn)).op = op ∧ (Fields.ofWord (packXNN op x nn)).x = finToNibble x ∧
      (Fields.ofWord (packXNN op x nn)).nn = nn := by
  refine ⟨?_, ?_, ?_⟩
  · ext i hi
    simp only [Fields.ofWord, packXNN, BitVec.getElem_extractLsb', BitVec.getLsbD_append]
    have : ¬ 12 + i - 8 < 4 := by omega
    have e : 12 + i - 8 - 4 = i := by omega
    have h8 : ¬ 12 + i < 8 := by omega
    simp [this, e, h8, BitVec.getLsbD_eq_getElem hi]
  · ext i hi
    simp only [Fields.ofWord, packXNN, BitVec.getElem_extractLsb', BitVec.getLsbD_append]
    simp [hi]
  · ext i hi
    simp only [Fields.ofWord, packXNN, BitVec.getElem_extractLsb', BitVec.getLsbD_append]
    simp [hi]

theorem fields_packXYN :
    (Fields.ofWord (packXYN op x y n)).op = op ∧ (Fields.ofWord (packXYN op x y n)).x = finToNibble x ∧
      (Fields.ofWord (packXYN op x y n)).y = finToNibble y ∧
      (Fields.ofWord (packXYN op x y n)).n = n := by
  refine ⟨?_, ?_, ?_, ?_⟩
  · ext i hi
    simp only [Fields.ofWord, packXYN, BitVec.getElem_extractLsb', BitVec.getLsbD_append]
    have h1 : ¬ 12 + i < 4 := by omega
    have h2 : ¬ 12 + i - 4 < 4 := by omega
    have h3 : ¬ 12 + i - 4 - 4 < 4 := by omega
    have e : 12 + i - 4 - 4 - 4 = i := by omega
    simp [h1, h2, h3, e, BitVec.getLsbD_eq_getElem hi]
  · ext i hi
    simp only [Fields.ofWord, packXYN, BitVec.getElem_extractLsb', BitVec.getLsbD_append]
    have h1 : ¬ 8 + i < 4 := by omega
    have h2 : ¬ 8 + i - 4 < 4 := by omega
    have e : 8 + i - 4 - 4 = i := by omega
    simp [h1, h2, e, hi]
  · ext i hi
    simp only [Fields.ofWord, packXYN, BitVec.getElem_extractLsb', BitVec.getLsbD_append]
    simp [hi]
  · ext i hi
    simp only [Fields.ofWord, packXYN, BitVec.getElem_extractLsb', BitVec.getLsbD_append]
    simp [hi]

end

/-- `(w & mask) = match` (R80) for the masks of the opcode table. -/
theorem packNNN_and (op : BitVec 4) (nnn : Addr) :
    packNNN op nnn &&& 0xF000 = packNNN op 0 := by
  refine BitVec.eq_of_getLsbD_eq fun i hi => ?_
  simp only [packNNN, BitVec.getLsbD_and, BitVec.getLsbD_append]
  interval_cases i <;> simp

theorem packXNN_and (op : BitVec 4) (x : Reg) (nn : Byte) :
    packXNN op x nn &&& 0xF000 = packXNN op 0 0 ∧ packXNN op x nn &&& 0xF0FF = packXNN op 0 nn := by
  constructor <;>
  · refine BitVec.eq_of_getLsbD_eq fun i hi => ?_
    simp only [packXNN, finToNibble, BitVec.getLsbD_and, BitVec.getLsbD_append]
    interval_cases i <;> simp

theorem packXYN_and (op : BitVec 4) (x y : Reg) (n : BitVec 4) :
    packXYN op x y n &&& 0xF000 = packXYN op 0 0 0 ∧ packXYN op x y n &&& 0xF00F = packXYN op 0 0 n := by
  constructor <;>
  · refine BitVec.eq_of_getLsbD_eq fun i hi => ?_
    simp only [packXYN, finToNibble, BitVec.getLsbD_and, BitVec.getLsbD_append]
    interval_cases i <;> simp

end Sys2Proof
end

