-- ==== Sys2Proof/Laws/Memory.lean ====
section
/-!
SUPPORT. Read-after-write, and the canonical form: every memory operation keeps it.
-/

namespace Sys2Proof.Machine

/-! ### The list -/

theorem Memory.read_insert (d : Byte) (a : Nat) (c : Host.Cell) (m : Memory)
    (hm : ∀ e ∈ m, e.1 ≠ c.1) :
    Memory.read d a (Memory.insert c m) = if c.1 = a then c.2 else Memory.read d a m := by
  induction m with
  | nil => rfl
  | cons e m ih =>
    have he : e.1 ≠ c.1 := hm e (by simp)
    have ih := ih fun e h => hm e (by simp [h])
    unfold Memory.insert
    split
    · rfl
    · simp only [Memory.read, ih]
      by_cases h : e.1 = a
      · have : c.1 ≠ a := fun hc => he (h.trans hc.symm)
        simp [h, this]
      · simp [h]

theorem Memory.read_erase_same (d : Byte) (a : Nat) (m : Memory) :
    Memory.read d a (m.filter fun c => c.1 != a) = d := by
  induction m with
  | nil => rfl
  | cons e m ih =>
    by_cases h : e.1 = a <;> simp_all [Memory.read]

theorem Memory.read_erase_other (d : Byte) (a a' : Nat) (m : Memory) (h : a' ≠ a) :
    Memory.read d a' (m.filter fun c => c.1 != a) = Memory.read d a' m := by
  induction m with
  | nil => rfl
  | cons e m ih =>
    by_cases he : e.1 = a
    · have : e.1 ≠ a' := fun h' => h (h'.symm.trans he)
      simp_all [Memory.read]
    · simp_all [Memory.read]

/-- A read after a write: the written byte at its address, the old byte elsewhere. `d'` is what the
read address reads as unlisted. -/
theorem Memory.read_write (d d' : Byte) (a a' : Nat) (b : Byte) (m : Memory) (hd : a' = a → d' = d) :
    Memory.read d' a' (Memory.write d a b m) = if a' = a then b else Memory.read d' a' m := by
  unfold Memory.write
  by_cases hb : b = d
  · subst hb
    by_cases h : a' = a
    · subst h; simp [Memory.read_erase_same, hd]
    · simp [Memory.read_erase_other _ _ _ _ h, h]
  · have hm : ∀ e ∈ m.filter (fun c => c.1 != a), e.1 ≠ a := by simp
    rw [if_neg hb, Memory.read_insert d' a' (a, b) _ hm]
    by_cases h : a' = a
    · simp [h]
    · have : a ≠ a' := fun h' => h h'.symm
      simp only [this, h, if_false]
      exact Memory.read_erase_other _ _ _ _ h

theorem Memory.mem_insert (c e : Host.Cell) (m : Memory) :
    e ∈ Memory.insert c m ↔ e = c ∨ e ∈ m := by
  induction m with
  | nil => simp [Memory.insert]
  | cons e' m ih =>
    unfold Memory.insert
    split
    · simp
    · simp [ih, or_left_comm]

theorem Memory.pairwise_insert (c : Host.Cell) (m : Memory)
    (hs : m.Pairwise fun c d => c.1 < d.1) (hc : ∀ e ∈ m, e.1 ≠ c.1) :
    (Memory.insert c m).Pairwise fun c d => c.1 < d.1 := by
  induction m with
  | nil => simp [Memory.insert]
  | cons e m ih =>
    rw [List.pairwise_cons] at hs
    have he : e.1 ≠ c.1 := hc e (by simp)
    unfold Memory.insert
    split
    · rename_i hlt
      refine List.pairwise_cons.2 ⟨fun e' he' => ?_, List.pairwise_cons.2 hs⟩
      rcases List.mem_cons.1 he' with rfl | h
      · exact hlt
      · exact lt_trans hlt (hs.1 e' h)
    · refine List.pairwise_cons.2 ⟨fun e' he' => ?_, ih hs.2 fun e h => hc e (by simp [h])⟩
      rcases (Memory.mem_insert c e' m).1 he' with rfl | h
      · omega
      · exact hs.1 e' h

/-- Writing keeps the canonical form. -/
theorem Memory.write_wf (p : Params) (a : Nat) (b : Byte) (m : Memory) (ha : a < Config.memSize)
    (h : Memory.wf p m) : Memory.wf p (Memory.write (resetByte p a) a b m) := by
  have hs := h.1.filter fun c => c.1 != a
  have hd : ∀ c ∈ m.filter (fun c => c.1 != a), c.1 < Config.memSize ∧ c.2 ≠ resetByte p c.1 :=
    fun c hc => h.2 c (List.mem_filter.1 hc).1
  unfold Memory.write
  by_cases hb : b = resetByte p a
  · rw [if_pos hb]
    exact ⟨hs, hd⟩
  · rw [if_neg hb]
    refine ⟨Memory.pairwise_insert _ _ hs (by simp), fun c hc => ?_⟩
    rcases (Memory.mem_insert _ c _).1 hc with rfl | hc
    · exact ⟨ha, hb⟩
    · exact hd c hc

theorem Memory.nil_wf (p : Params) : Memory.wf p [] := ⟨List.Pairwise.nil, by simp⟩

/-! ### The state's memory -/

theorem reduce_lt (a : Nat) : reduce a < Config.memSize := Nat.mod_lt _ (by decide)

theorem reduce_reduce (a : Nat) : reduce (reduce a) = reduce a := Nat.mod_mod _ _

/-- A read after a one-byte write (spec/20_memory.md R55, R66). -/
theorem State.readByte_writeByte (s : State) (a a' : Nat) (b : Byte) :
    (s.writeByte a b).readByte a' = if reduce a' = reduce a then b else s.readByte a' := by
  unfold State.readByte
  simp only [State.writeByte_mem, State.writeByte_params]
  exact Memory.read_write _ _ _ _ _ _ fun h => by rw [h]

theorem State.writeByte_wf (s : State) (a : Nat) (b : Byte) (h : Memory.wf s.params s.mem) :
    Memory.wf (s.writeByte a b).params (s.writeByte a b).mem := by
  simpa using Memory.write_wf _ _ _ _ (reduce_lt a) h

theorem State.writeBytes_wf (s : State) (a : Nat) (bs : List Byte) (h : Memory.wf s.params s.mem) :
    Memory.wf (s.writeBytes a bs).params (s.writeBytes a bs).mem := by
  induction bs generalizing s a with
  | nil => exact h
  | cons b bs ih => exact ih _ _ (State.writeByte_wf s a b h)

/-- An address that none of the bytes at `a` reach reads as before. -/
theorem State.readByte_writeBytes_other (s : State) (a : Nat) (bs : List Byte) (a' : Nat)
    (h : ∀ k < bs.length, reduce a' ≠ reduce (a + k)) :
    (s.writeBytes a bs).readByte a' = s.readByte a' := by
  induction bs generalizing s a with
  | nil => rfl
  | cons b bs ih =>
    rw [State.writeBytes, ih _ (a + 1) fun k hk => by
      simpa [Nat.add_assoc, Nat.add_comm 1 k] using h (k + 1) (by simpa using hk)]
    have h0 : reduce a' ≠ reduce a := by simpa using h 0 (by simp)
    simp [State.readByte_writeByte, h0]

/-- Byte `k` of a store of at most 4096 bytes lands at `a + k`. -/
theorem State.readByte_writeBytes_same (s : State) (a : Nat) (bs : List Byte) (k : Nat)
    (hk : k < bs.length) (hl : bs.length ≤ Config.memSize) :
    (s.writeBytes a bs).readByte (a + k) = bs[k] := by
  induction bs generalizing s a k with
  | nil => simp at hk
  | cons b bs ih =>
    rw [State.writeBytes]
    cases k with
    | zero =>
      rw [State.readByte_writeBytes_other]
      · simp [State.readByte_writeByte]
      · intro j hj
        have hb : (b :: bs).length = bs.length + 1 := rfl
        simp only [reduce, Config.memSize] at hl ⊢
        omega
    | succ k =>
      have := ih (s.writeByte a b) (a + 1) k (by simpa using hk)
        (le_trans (by simp) hl)
      simpa [Nat.add_assoc, Nat.add_comm 1 k] using this

/-- Everything a program store can do: fault with nothing written, or write its bytes (R58, R60). -/
theorem State.storeBytes_cases (s : State) (a : Nat) (bs : List Byte) :
    (s.params.fontWrite = .fault ∧ touchesFont a bs.length = true ∧
      s.storeBytes a bs = takeFault .fontWrite s) ∨
    (¬ (s.params.fontWrite = .fault ∧ touchesFont a bs.length = true) ∧
      s.storeBytes a bs = s.writeBytes a bs) := by
  unfold State.storeBytes
  split <;> simp_all

theorem touchesFont_eq_true (a n : Nat) :
    touchesFont a n = true ↔ ∃ k < n, Config.inFont (reduce (a + k)) = true := by
  simp [touchesFont]

theorem State.storeBytes_wf (s : State) (a : Nat) (bs : List Byte) (h : Memory.wf s.params s.mem) :
    Memory.wf (s.storeBytes a bs).params (s.storeBytes a bs).mem := by
  rcases s.storeBytes_cases a bs with ⟨_, _, e⟩ | ⟨_, e⟩ <;> rw [e]
  · exact h
  · exact State.writeBytes_wf s a bs h

end Sys2Proof.Machine
end

