-- ==== Sys2Proof/Laws/Frames.lean ====
section
/-!
SUPPORT. What each shared operation leaves unchanged, in the frames of Sys2Proof/Safety.lean, and when a
program store faults.
-/

namespace Sys2Proof.Machine

theorem ChangesOnlyPc.of_pc (s : State) (p : Word) : ChangesOnlyPc s { s with pc := p } :=
  ⟨rfl, fun _ => rfl, fun _ => rfl⟩

theorem ChangesOnlyIndex.of_idx (s : State) (i : Word) : ChangesOnlyIndex s { s with idx := i } :=
  ⟨rfl, fun _ => rfl, fun _ => rfl⟩

theorem State.skipIf_frame (s : State) (b : Bool) : ChangesOnlyPc s (s.skipIf b) := by
  cases b <;> exact ⟨rfl, fun _ => rfl, fun _ => rfl⟩

theorem State.skipIf_pc_toNat (s : State) (b : Bool) :
    (s.skipIf b).pc.toNat = if b then (s.pc.toNat + 2) % 65536 else s.pc.toNat := by
  cases b <;> simp [BitVec.toNat_add]

theorem State.rewind_frame (s : State) : ChangesOnlyPc s s.rewind :=
  ⟨by simp [State.rewind], fun _ => by simp [State.getV], fun _ => by simp [State.readByte]⟩

theorem State.rewind_pc_toNat (s : State) : s.rewind.pc.toNat = (s.pc.toNat + 65534) % 65536 := by
  simp [BitVec.toNat_sub, Nat.add_comm]

theorem State.setV_frame (s : State) (x : Reg) (b : Byte) : ChangesOnlyRegs s (s.setV x b) [x] :=
  ⟨rfl, fun _ h => State.getV_setV_other _ _ _ _ (by simpa using h), fun _ => rfl⟩

theorem State.setResultThenFlag_frame (s : State) (x : Reg) (r f : Byte) :
    ChangesOnlyRegs s (s.setResultThenFlag x r f) [x, Reg.vf] :=
  ⟨rfl, fun k h => by
    rw [State.getV_setResultThenFlag]
    simp only [List.mem_cons, List.not_mem_nil, or_false, not_or] at h
    simp [h], fun _ => rfl⟩

theorem State.shiftInPlace_frame (s : State) (x : Reg) (flag result : Byte → Byte) :
    ChangesOnlyRegs s (s.shiftInPlace x flag result) [x, Reg.vf] :=
  ⟨State.shiftInPlace_eq _ _ _ _, fun k h => by
    simp only [List.mem_cons, List.not_mem_nil, or_false, not_or] at h
    exact State.getV_shiftInPlace_other _ _ _ _ _ h.1 h.2, fun _ => by
    rw [State.shiftInPlace_eq]; rfl⟩

theorem State.loadLoop_frame (s : State) (ks : List Reg) :
    ChangesOnlyRegs s (ks.foldl (fun t k => t.setV k (t.readByte (t.idx.toNat + k.val))) s) ks :=
  ⟨State.loadLoop_eq _ _, fun k h => by rw [State.getV_loadLoop, if_neg h], fun _ => by
    rw [State.loadLoop_eq]; rfl⟩

/-- Taking a fault, all of it (R143). -/
theorem takeFault_halts (code : FaultCode) (s : State) : Halts code s (takeFault code s) :=
  ⟨rfl, rfl, rfl, rfl, fun _ => rfl, fun _ => rfl⟩

/-- Writing bytes changes `mem` alone. -/
theorem State.writeBytes_eq (s : State) (a : Nat) (bs : List Byte) :
    s.writeBytes a bs = { s with mem := (s.writeBytes a bs).mem } := by
  induction bs generalizing s a with
  | nil => rfl
  | cons b bs ih => rw [State.writeBytes, ih]; rfl

theorem State.writeBytes_frame (s : State) (a : Nat) (bs : List Byte) :
    ChangesOnlyBytes s (s.writeBytes a bs) a bs.length :=
  ⟨State.writeBytes_eq _ _ _, fun _ => by rw [State.writeBytes_eq]; rfl,
    fun _ h => State.readByte_writeBytes_other _ _ _ _ h⟩

/-- The test of the stores is the rule's: some target byte lies in 0x050 to 0x09F. -/
theorem touchesFont_iff_meetsFont (a n : Nat) : touchesFont a n = true ↔ meetsFont a n := by
  rw [touchesFont_eq_true]
  simp only [Config.inFont, reduce, Config.fontBase, Config.fontSize, Config.memSize, meetsFont]
  constructor
  · rintro ⟨k, h1, h2⟩
    have := of_decide_eq_true h2
    exact ⟨k, h1, by omega⟩
  · rintro ⟨k, h1, h2⟩
    exact ⟨k, h1, decide_eq_true (by omega)⟩

/-- A program store: the bytes are written, or the fault is taken and nothing is written. -/
theorem State.storeBytes_spec (s : State) (a : Nat) (bs : List Byte) :
    (¬ s.storeFaults a bs.length → s.storeBytes a bs = s.writeBytes a bs) ∧
    (s.storeFaults a bs.length → s.storeBytes a bs = takeFault .fontWrite s) := by
  unfold State.storeFaults
  rw [← touchesFont_iff_meetsFont]
  constructor <;> intro h <;> simp only [State.storeBytes]
  · rw [if_neg h]
  · rw [if_pos h]

theorem wordOfBytes_toNat (a b : Byte) : (wordOfBytes a b).toNat = a.toNat * 256 + b.toNat := by
  have h : (wordOfBytes a b).toNat = a.toNat <<< 8 ||| b.toNat := BitVec.toNat_append a b
  rw [h, ← Nat.shiftLeft_add_eq_or_of_lt (by omega), Nat.shiftLeft_eq]

/-- A cycle runs the decoded instruction, or takes UNKNOWN_INSTRUCTION. -/
theorem State.executeFetched_eq (s : State) :
    s.executeFetched = match decode s.cycle.word with
      | .ok i => exec i s
      | .error _ => .next (takeFault .unknownInstruction s) := by
  simp only [State.executeFetched, decodeBytes, wordOfBytes_highByte_lowByte]
  cases decode s.cycle.word <;> rfl

end Sys2Proof.Machine
end

