-- ==== Sys2Proof/Laws/PerInstr.lean ====
section
/-!
SUPPORT. A statement for each instruction as syntax: its encoding is accepted by its own row of the
opcode table (spec/30_encoding.md R80).
-/

namespace Sys2Proof.Laws.MatchesRow

/-- The word of `i` is an instruction of the row that `i` names. -/
def Statement (i : Instr) : Prop := ∃ r, i.row? = some r ∧ r.accepts (encode i) = true

theorem cls : Statement (.cls) :=
  ⟨_, rfl, rfl⟩

theorem ret : Statement (.ret) :=
  ⟨_, rfl, rfl⟩

theorem jp (nnn : Addr) : Statement (.jp nnn) :=
  ⟨_, rfl, beq_iff_eq.2 (packNNN_and _ _)⟩

theorem call (nnn : Addr) : Statement (.call nnn) :=
  ⟨_, rfl, beq_iff_eq.2 (packNNN_and _ _)⟩

theorem seByte (x : Reg) (nn : Byte) : Statement (.seByte x nn) :=
  ⟨_, rfl, beq_iff_eq.2 (packXNN_and _ _ _).1⟩

theorem sneByte (x : Reg) (nn : Byte) : Statement (.sneByte x nn) :=
  ⟨_, rfl, beq_iff_eq.2 (packXNN_and _ _ _).1⟩

theorem seReg (x y : Reg) : Statement (.seReg x y) :=
  ⟨_, rfl, beq_iff_eq.2 (packXYN_and _ _ _ _).2⟩

theorem sneReg (x y : Reg) : Statement (.sneReg x y) :=
  ⟨_, rfl, beq_iff_eq.2 (packXYN_and _ _ _ _).2⟩

theorem ldByte (x : Reg) (nn : Byte) : Statement (.ldByte x nn) :=
  ⟨_, rfl, beq_iff_eq.2 (packXNN_and _ _ _).1⟩

theorem addByte (x : Reg) (nn : Byte) : Statement (.addByte x nn) :=
  ⟨_, rfl, beq_iff_eq.2 (packXNN_and _ _ _).1⟩

theorem ldReg (x y : Reg) : Statement (.ldReg x y) :=
  ⟨_, rfl, beq_iff_eq.2 (packXYN_and _ _ _ _).2⟩

theorem orReg (x y : Reg) : Statement (.orReg x y) :=
  ⟨_, rfl, beq_iff_eq.2 (packXYN_and _ _ _ _).2⟩

theorem andReg (x y : Reg) : Statement (.andReg x y) :=
  ⟨_, rfl, beq_iff_eq.2 (packXYN_and _ _ _ _).2⟩

theorem xorReg (x y : Reg) : Statement (.xorReg x y) :=
  ⟨_, rfl, beq_iff_eq.2 (packXYN_and _ _ _ _).2⟩

theorem addReg (x y : Reg) : Statement (.addReg x y) :=
  ⟨_, rfl, beq_iff_eq.2 (packXYN_and _ _ _ _).2⟩

theorem subReg (x y : Reg) : Statement (.subReg x y) :=
  ⟨_, rfl, beq_iff_eq.2 (packXYN_and _ _ _ _).2⟩

theorem shr (x y : Reg) : Statement (.shr x y) :=
  ⟨_, rfl, beq_iff_eq.2 (packXYN_and _ _ _ _).2⟩

theorem subnReg (x y : Reg) : Statement (.subnReg x y) :=
  ⟨_, rfl, beq_iff_eq.2 (packXYN_and _ _ _ _).2⟩

theorem shl (x y : Reg) : Statement (.shl x y) :=
  ⟨_, rfl, beq_iff_eq.2 (packXYN_and _ _ _ _).2⟩

theorem ldI (nnn : Addr) : Statement (.ldI nnn) :=
  ⟨_, rfl, beq_iff_eq.2 (packNNN_and _ _)⟩

theorem jpV0 (nnn : Addr) : Statement (.jpV0 nnn) :=
  ⟨_, rfl, beq_iff_eq.2 (packNNN_and _ _)⟩

theorem rnd (x : Reg) (nn : Byte) : Statement (.rnd x nn) :=
  ⟨_, rfl, beq_iff_eq.2 (packXNN_and _ _ _).1⟩

theorem drw (x y : Reg) (n : Fin 16) : Statement (.drw x y n) :=
  ⟨_, rfl, beq_iff_eq.2 (packXYN_and _ _ _ _).1⟩

theorem skp (x : Reg) : Statement (.skp x) :=
  ⟨_, rfl, beq_iff_eq.2 (packXNN_and _ _ _).2⟩

theorem sknp (x : Reg) : Statement (.sknp x) :=
  ⟨_, rfl, beq_iff_eq.2 (packXNN_and _ _ _).2⟩

theorem ldVxDt (x : Reg) : Statement (.ldVxDt x) :=
  ⟨_, rfl, beq_iff_eq.2 (packXNN_and _ _ _).2⟩

theorem ldDtVx (x : Reg) : Statement (.ldDtVx x) :=
  ⟨_, rfl, beq_iff_eq.2 (packXNN_and _ _ _).2⟩

theorem ldStVx (x : Reg) : Statement (.ldStVx x) :=
  ⟨_, rfl, beq_iff_eq.2 (packXNN_and _ _ _).2⟩

theorem addI (x : Reg) : Statement (.addI x) :=
  ⟨_, rfl, beq_iff_eq.2 (packXNN_and _ _ _).2⟩

theorem ldVxK (x : Reg) : Statement (.ldVxK x) :=
  ⟨_, rfl, beq_iff_eq.2 (packXNN_and _ _ _).2⟩

theorem ldF (x : Reg) : Statement (.ldF x) :=
  ⟨_, rfl, beq_iff_eq.2 (packXNN_and _ _ _).2⟩

theorem ldB (x : Reg) : Statement (.ldB x) :=
  ⟨_, rfl, beq_iff_eq.2 (packXNN_and _ _ _).2⟩

theorem storeRegs (x : Reg) : Statement (.storeRegs x) :=
  ⟨_, rfl, beq_iff_eq.2 (packXNN_and _ _ _).2⟩

theorem loadRegs (x : Reg) : Statement (.loadRegs x) :=
  ⟨_, rfl, beq_iff_eq.2 (packXNN_and _ _ _).2⟩

end Sys2Proof.Laws.MatchesRow
end

