-- ==== Sys2Proof/Tests/Slice0.lean ====
section
/-!
SUPPORT. Tests: expected values are from spec/30_encoding.md and the vectors of
spec/95_test_vectors.md, named in each comment. Then a witness for the hypotheses of each statement of
Sys2Proof/Certificates/Slice0/Obligations.lean that has any.
-/

namespace Sys2Proof.Tests

open Sys2Proof Sys2Proof.Machine

/-! ### Helpers -/

/-- The reset core in phase RUN at 0x200. -/
def core0 : State := State.reset.running

/-- `f` of that core, about to run the word `w`. -/
def ready (f : State → State) (w : Nat) : State := (f core0).withFetchWord 16 w

/-- The next step answers a next state, and `p` holds of it. -/
def runs (s : State) (p : State → Bool) : Bool :=
  match step s with
  | .next t => p t
  | .fault _ => false
  | .refused _ => false

/-- The registers set in order. -/
def regs (l : List (Reg × Byte)) (s : State) : State := l.foldl (fun s c => s.setV c.1 c.2) s

/-- The pixels lit, on a blank display. -/
def lit (l : List (Nat × Nat)) (s : State) : State :=
  { s with disp := l.foldl (fun d c => d.toggle c.1 c.2) Display.blank }

def index (i : Word) (s : State) : State := { s with idx := i }

def bytes (a : Nat) (bs : List Byte) (s : State) : State := s.writeBytes a bs

def keys (k : BitVec 16) (s : State) : State := { s with cycle := { s.cycle with keys := k } }

def random (r : Byte) (s : State) : State := { s with cycle := { s.cycle with rnd := r } }

def timers (d t : Byte) (s : State) : State := { s with dt := d, st := t }

def callers (l : List Word) (s : State) : State := { s with stack := l }

def asked (l : List Request) (s : State) : State := { s with requests := l }

def shifts (o : VfShiftOrder) (s : State) : State := { s with params := { s.params with vfShiftOrder := o } }

def keysNotHeld (s : State) : State := { s with params := { s.params with keyRange := .notHeld } }

def fontWritable (s : State) : State := { s with params := { s.params with fontWrite := .write } }

/-- The core halted with a record. -/
def halted0 : State :=
  { core0 with phase := .halted, fault := some ⟨.unknownInstruction, 0x0000, 0x0200⟩ }

/-- The record of a fault at 0x200, with `pc` there and phase HALTED. -/
def haltedAt200 (c : FaultCode) (w : Word) (t : State) : Bool :=
  t.fault == some ⟨c, w, 0x0200⟩ && t.pc == 0x0200 && t.phase == .halted

def rejects (w : Word) (e : Reject) : Bool :=
  match decode w with
  | .ok _ => false
  | .error e' => e' == e

/-! ### Well-formedness: ill-formed terms are refused -/

theorem test_ill_formed_words : legalWord 0x0123 = false ∧ legalWord 0x5121 = false ∧
    legalWord 0x8128 = false ∧ legalWord 0x912F = false ∧ legalWord 0xE500 = false ∧
    legalWord 0xF0FF = false ∧ legalWord 0x0000 = false ∧ legalWord 0x00E0 = true := by decide

theorem test_ill_formed_parameters : ¬ { Params.default with stackDepth := 0 }.wf ∧
    Params.default.wf := by decide

theorem test_image_too_long : ¬ imageFits (List.replicate 3585 0) ∧
    imageFits (List.replicate 3584 0) := by
  rw [imageFits, imageFits, List.length_replicate, List.length_replicate]
  decide

/-- The canonical form refuses an entry that equals the reset contents, a falling order and an address
outside memory. -/
theorem test_ill_formed_memory : ¬ Memory.wf Params.default [(0x300, 0)] ∧
    ¬ Memory.wf Params.default [(0x050, 0xF0)] ∧ ¬ Memory.wf Params.default [(0x301, 1), (0x300, 1)] ∧
    ¬ Memory.wf Params.default [(0x1000, 1)] ∧ Memory.wf Params.default [(0x050, 1), (0x300, 1)] := by
  decide

/-! ### Decoding: words written out from R74, R76 and R80 -/

theorem test_decode_zero : decodeTableWord 16 0b0000_0000_1110_0000 = some .cls ∧
    decodeTableWord 16 0b0000_0000_1110_1110 = some .ret := by decide

theorem test_decode_addr : decodeTableWord 16 0b0001_1010_1011_1100 = some (.jp 0xABC) ∧
    decodeTableWord 16 0b0010_0011_0000_0000 = some (.call 0x300) ∧
    decodeTableWord 16 0b1010_1111_0000_0001 = some (.ldI 0xF01) ∧
    decodeTableWord 16 0b1011_0010_0011_0100 = some (.jpV0 0x234) := by decide

theorem test_decode_byte : decodeTableWord 16 0b0011_0011_0100_0010 = some (.seByte 3 0x42) ∧
    decodeTableWord 16 0b0100_1111_0000_0001 = some (.sneByte 15 0x01) ∧
    decodeTableWord 16 0b0110_0000_0001_0000 = some (.ldByte 0 0x10) ∧
    decodeTableWord 16 0b0111_0000_0000_0101 = some (.addByte 0 0x05) ∧
    decodeTableWord 16 0b1100_1001_1000_0001 = some (.rnd 9 0x81) := by decide

theorem test_decode_register_skips : decodeTableWord 16 0b0101_0001_0010_0000 = some (.seReg 1 2) ∧
    decodeTableWord 16 0b1001_1110_0111_0000 = some (.sneReg 14 7) := by decide

theorem test_decode_eight : decodeTableWord 16 0b1000_0001_0010_0000 = some (.ldReg 1 2) ∧
    decodeTableWord 16 0b1000_0001_0010_0001 = some (.orReg 1 2) ∧
    decodeTableWord 16 0b1000_0001_0010_0010 = some (.andReg 1 2) ∧
    decodeTableWord 16 0b1000_0001_0010_0011 = some (.xorReg 1 2) ∧
    decodeTableWord 16 0b1000_1111_1110_0100 = some (.addReg 15 14) ∧
    decodeTableWord 16 0b1000_0001_0010_0101 = some (.subReg 1 2) ∧
    decodeTableWord 16 0b1000_0001_0010_0110 = some (.shr 1 2) ∧
    decodeTableWord 16 0b1000_0001_0010_0111 = some (.subnReg 1 2) ∧
    decodeTableWord 16 0b1000_0001_0010_1110 = some (.shl 1 2) := by decide

theorem test_decode_draw : decodeTableWord 16 0b1101_0001_1010_0101 = some (.drw 1 10 5) := by decide

theorem test_decode_keys : decodeTableWord 16 0b1110_0101_1001_1110 = some (.skp 5) ∧
    decodeTableWord 16 0b1110_0101_1010_0001 = some (.sknp 5) ∧
    decodeTableWord 16 0b1111_0011_0000_1010 = some (.ldVxK 3) := by decide

theorem test_decode_timers : decodeTableWord 16 0b1111_0100_0000_0111 = some (.ldVxDt 4) ∧
    decodeTableWord 16 0b1111_0100_0001_0101 = some (.ldDtVx 4) ∧
    decodeTableWord 16 0b1111_0100_0001_1000 = some (.ldStVx 4) := by decide

theorem test_decode_index : decodeTableWord 16 0b1111_0010_0001_1110 = some (.addI 2) ∧
    decodeTableWord 16 0b1111_0010_0010_1001 = some (.ldF 2) ∧
    decodeTableWord 16 0b1111_0010_0011_0011 = some (.ldB 2) ∧
    decodeTableWord 16 0b1111_0010_0101_0101 = some (.storeRegs 2) ∧
    decodeTableWord 16 0b1111_0000_0110_0101 = some (.loadRegs 0) := by decide

/-- One illegal word of each family of R82, by name. -/
theorem test_decode_rejects_by_name : rejects 0x00E1 .illegalZero = true ∧
    rejects 0x5121 .illegalFive = true ∧ rejects 0x8128 .illegalEight = true ∧
    rejects 0x912F .illegalNine = true ∧ rejects 0xE500 .illegalKey = true ∧
    rejects 0xF000 .illegalMisc = true := by decide

/-- V1: the fields of 0xD1A5 and 0x8FE4. -/
theorem test_fields : Fields.ofWord 0xD1A5 = ⟨0xD, 0x1, 0xA, 0x5, 0xA5, 0x1A5⟩ ∧
    Fields.ofWord 0x8FE4 = ⟨0x8, 0xF, 0xE, 0x4, 0xE4, 0xFE4⟩ := by decide

/-! ### Display (section 2.1) -/

/-- D-1. -/
theorem test_cls : runs (ready (lit [(0, 0), (63, 31)]) 0x00E0) (fun t =>
    !t.disp.pixel 0 0 && !t.disp.pixel 63 31 && t.frameStrobe && t.pc == 0x202) = true := by decide

/-- D-3: one lit pixel goes off. -/
theorem test_drw_collision : runs (ready (lit [(1, 0)] ∘ index 0x050) 0xD011) (fun t =>
    (List.range 8).all (fun x => t.disp.pixel x 0 == (x == 0 || x == 2 || x == 3)) && t.getV 15 == 1 && t.frameStrobe) = true := by
  decide

/-- D-8 with D-5's clip: the origin is read from VF before VF is cleared. -/
theorem test_drw_clips_and_reads_vf_first :
    runs (ready (regs [(15, 63), (0, 31)] ∘ bytes 0x300 [0xC0, 0xFF] ∘ index 0x300) 0xDF02) (fun t =>
      t.disp.pixel 63 31 && !t.disp.pixel 0 31 && !t.disp.pixel 63 0 && !t.disp.pixel 0 0 && t.getV 15 == 0) = true := by decide

/-! ### Control flow (section 2.2) -/

/-- F-3. -/
theorem test_ret : runs (ready (callers [0x1234]) 0x00EE) (fun t =>
    t.pc == 0x1234 && t.stack == []) = true := by decide

/-- F-2. -/
theorem test_ret_underflow :
    runs (ready id 0x00EE) (haltedAt200 .stackUnderflow 0x00EE) = true := by decide

/-- F-4. -/
theorem test_jp : runs (ready id 0x1345) (fun t => t.pc == 0x345) = true := by decide

/-- F-7. -/
theorem test_call : runs (ready (callers (List.replicate 15 0x0777)) 0x2300) (fun t =>
    t.stack == List.replicate 15 0x0777 ++ [0x0202] && t.pc == 0x300) = true := by decide

/-- F-8. -/
theorem test_call_overflow : runs (ready (callers (List.replicate 16 0x0777)) 0x2300)
    (haltedAt200 .stackOverflow 0x2300) = true := by decide

/-- F-9 and F-11 (the skip passes 0xFFF). -/
theorem test_se_byte : runs (ready (regs [(3, 0x42)]) 0x3342) (fun t => t.pc == 0x204) = true ∧
    runs (ready (fun s => { s with pc := 0xFFE }) 0x3300) (fun t => t.pc == 0x1002) = true := by decide

/-- F-12, F-13. -/
theorem test_sne_byte : runs (ready (regs [(3, 0x42)]) 0x4342) (fun t => t.pc == 0x202) = true ∧
    runs (ready (regs [(3, 0x41)]) 0x4342) (fun t => t.pc == 0x204) = true := by decide

/-- F-14, F-15. -/
theorem test_se_reg : runs (ready (regs [(1, 7), (2, 7)]) 0x5120) (fun t => t.pc == 0x204) = true ∧
    runs (ready (regs [(1, 7), (2, 8)]) 0x5120) (fun t => t.pc == 0x202) = true := by decide

/-- F-18, F-19. -/
theorem test_sne_reg : runs (ready (regs [(1, 7), (2, 8)]) 0x9120) (fun t => t.pc == 0x204) = true ∧
    runs (ready (regs [(1, 9)]) 0x9110) (fun t => t.pc == 0x202) = true := by decide

/-- F-22: the sum passes 12 bits and is kept. -/
theorem test_jp_v0 : runs (ready (regs [(0, 0xFF)]) 0xBFFF) (fun t => t.pc == 0x10FE) = true := by decide

/-! ### Registers and ALU (section 2.3) -/

/-- A-1. -/
theorem test_ld_byte :
    runs (ready id 0x6A5C) (fun t => t.getV 10 == 0x5C && t.pc == 0x202) = true := by decide

/-- A-4: a plain write of VF, no carry. -/
theorem test_add_byte : runs (ready (regs [(15, 0xFF)]) 0x7F01) (fun t => t.getV 15 == 0) = true := by
  decide

/-- A-5. -/
theorem test_ld_reg : runs (ready (regs [(2, 0x33)]) 0x8120) (fun t => t.getV 1 == 0x33) = true := by
  decide

/-- A-6: VF stays. -/
theorem test_or : runs (ready (regs [(1, 0xF0), (2, 0x0F), (15, 0x55)]) 0x8121) (fun t =>
    t.getV 1 == 0xFF && t.getV 15 == 0x55) = true := by decide

/-- A-7. -/
theorem test_and : runs (ready (regs [(1, 0xF0), (2, 0x3C), (15, 0x55)]) 0x8122) (fun t =>
    t.getV 1 == 0x30 && t.getV 15 == 0x55) = true := by decide

/-- A-8. -/
theorem test_xor : runs (ready (regs [(1, 0xFF), (2, 0x0F), (15, 0x55)]) 0x8123) (fun t =>
    t.getV 1 == 0xF0 && t.getV 15 == 0x55) = true := by decide

/-- A-14 (X = F keeps the carry) and A-15 (Y = F reads the old VF). -/
theorem test_add : runs (ready (regs [(15, 0xFF), (1, 2)]) 0x8F14) (fun t => t.getV 15 == 1) = true ∧
    runs (ready (regs [(1, 0x10), (15, 1)]) 0x81F4) (fun t =>
      t.getV 1 == 0x11 && t.getV 15 == 0) = true := by decide

/-- A-16, A-18. -/
theorem test_sub : runs (ready (regs [(1, 5), (2, 10)]) 0x8125) (fun t =>
      t.getV 1 == 0xFB && t.getV 15 == 0) = true ∧
    runs (ready (regs [(1, 0x33), (2, 0x33)]) 0x8125) (fun t =>
      t.getV 1 == 0 && t.getV 15 == 1) = true := by decide

/-- A-21, A-22. -/
theorem test_subn : runs (ready (regs [(1, 5), (2, 10)]) 0x8127) (fun t =>
      t.getV 1 == 5 && t.getV 15 == 1) = true ∧
    runs (ready (regs [(1, 10), (2, 5)]) 0x8127) (fun t =>
      t.getV 1 == 0xFB && t.getV 15 == 0) = true := by decide

/-- A-25: Y is ignored. -/
theorem test_shr : runs (ready (regs [(1, 5), (2, 0xFF)]) 0x8126) (fun t =>
    t.getV 1 == 2 && t.getV 15 == 1) = true := by decide

/-- A-27 to A-29. -/
theorem test_shr_vf :
    runs (ready (regs [(15, 3)]) 0x8F06) (fun t => t.getV 15 == 0) = true ∧
    runs (ready (regs [(15, 3)] ∘ shifts .flagLast) 0x8F06) (fun t => t.getV 15 == 1) = true ∧
    runs (ready (regs [(15, 3)] ∘ shifts .latched) 0x8F06) (fun t => t.getV 15 == 1) = true := by decide

/-- A-30. -/
theorem test_shl : runs (ready (regs [(1, 0x81)]) 0x810E) (fun t =>
    t.getV 1 == 2 && t.getV 15 == 1) = true := by decide

/-- A-32 to A-34. -/
theorem test_shl_vf :
    runs (ready (regs [(15, 0xC1)]) 0x8F0E) (fun t => t.getV 15 == 2) = true ∧
    runs (ready (regs [(15, 0xC1)] ∘ shifts .flagLast) 0x8F0E) (fun t => t.getV 15 == 1) = true ∧
    runs (ready (regs [(15, 0xC1)] ∘ shifts .latched) 0x8F0E) (fun t => t.getV 15 == 0x82) = true := by
  decide

/-- A-37. -/
theorem test_rnd : runs (ready (random 0xB6) 0xC30F) (fun t => t.getV 3 == 6) = true := by decide

/-! ### Index register and memory (section 2.4) -/

/-- M-1. -/
theorem test_ld_i : runs (ready id 0xA300) (fun t => t.idx == 0x300) = true := by decide

/-- M-3, M-4. -/
theorem test_add_i : runs (ready (index 0xFFF ∘ regs [(2, 1)]) 0xF21E) (fun t =>
      t.idx == 0x1000 && t.getV 15 == 0) = true ∧
    runs (ready (index 0xFFFF ∘ regs [(2, 2)]) 0xF21E) (fun t => t.idx == 1) = true := by decide

/-- M-8: no nibble mask. -/
theorem test_ld_f : runs (ready (regs [(0, 0xFF)]) 0xF029) (fun t => t.idx == 0x54B) = true := by decide

/-- M-12: the addresses wrap. -/
theorem test_ld_b : runs (ready (index 0xFFF ∘ regs [(0, 123)]) 0xF033) (fun t =>
    t.readByte 0xFFF == 1 && t.readByte 0 == 2 && t.readByte 1 == 3 && t.idx == 0xFFF) = true := by decide

/-- M-13: nothing is written; M-14. -/
theorem test_ld_b_font : runs (ready (index 0x04F ∘ regs [(0, 123)]) 0xF033) (fun t =>
      haltedAt200 .fontWrite 0xF033 t && t.readByte 0x04F == 0) = true ∧
    runs (ready (index 0x04F ∘ regs [(0, 123)] ∘ fontWritable) 0xF033) (fun t =>
      t.readByte 0x04F == 1 && t.readByte 0x050 == 2 && t.readByte 0x051 == 3) = true := by decide

/-- M-17. -/
theorem test_store_regs : runs (ready (index 0xFFE ∘ regs [(0, 1), (1, 2), (2, 3), (3, 4)]) 0xF355)
    (fun t => t.readByte 0xFFE == 1 && t.readByte 0xFFF == 2 && t.readByte 0 == 3 && t.readByte 1 == 4 &&
      t.readByte 2 == 0 && t.idx == 0xFFE) = true := by decide

/-- M-18. -/
theorem test_store_regs_font : runs (ready (index 0x04D ∘ regs [(0, 1), (1, 2), (2, 3), (3, 4)]) 0xF355)
    (fun t => haltedAt200 .fontWrite 0xF355 t && t.readByte 0x04D == 0 && t.readByte 0x050 == 0xF0) = true := by
  decide

/-- M-19: V3 is not loaded. -/
theorem test_load_regs : runs (ready (index 0x300 ∘ bytes 0x300 [2, 5, 4, 9]) 0xF265) (fun t =>
    t.getV 0 == 2 && t.getV 1 == 5 && t.getV 2 == 4 && t.getV 3 == 0 && t.idx == 0x300) = true := by decide

/-- M-21: glyph 0. -/
theorem test_load_regs_font : runs (ready (index 0x050) 0xF465) (fun t =>
    t.getV 0 == 0xF0 && t.getV 1 == 0x90 && t.getV 4 == 0xF0) = true := by decide

/-! ### Keys and timers (section 2.5) -/

/-- K-1, K-3. -/
theorem test_skp : runs (ready (regs [(5, 10)] ∘ keys 0x0400) 0xE59E) (fun t => t.pc == 0x204) = true ∧
    runs (ready (regs [(5, 16)]) 0xE59E) (haltedAt200 .keyRange 0xE59E) = true := by decide

/-- K-6, K-7. -/
theorem test_sknp : runs (ready (regs [(5, 10)] ∘ keys 0x0400) 0xE5A1) (fun t => t.pc == 0x202) = true ∧
    runs (ready (regs [(5, 16)] ∘ keysNotHeld) 0xE5A1) (fun t => t.pc == 0x204) = true := by decide

/-- K-9, K-12. -/
theorem test_key_wait : runs (ready (fun s => { s with pc := 0x210 }) 0xF30A) (fun t =>
      t.pc == 0x210 && t.getV 3 == 0) = true ∧
    runs (ready (fun s => { s with pc := 0 }) 0xF30A) (fun t => t.pc == 0) = true := by decide

/-- K-10: keys 3 and 7. -/
theorem test_key_lowest : runs (ready (keys 0x0088) 0xF30A) (fun t =>
    t.getV 3 == 3 && t.pc == 0x202) = true := by decide

/-- K-13. -/
theorem test_ld_vx_dt : runs (ready (timers 0x3C 0) 0xF407) (fun t => t.getV 4 == 0x3C) = true := by decide

/-- K-14. -/
theorem test_ld_dt_vx : runs (ready (regs [(4, 0x3C)]) 0xF415) (fun t => t.dt == 0x3C) = true := by decide

/-- K-16: no tone in this cycle. -/
theorem test_ld_st_vx : runs (ready (regs [(4, 2)]) 0xF418) (fun t =>
    t.st == 2 && t.dt == 0 && !t.toneStrobe) = true := by decide

/-! ### Ticks, faults and the host's requests (sections 2.6 and 2.7) -/

/-- T-2, T-1. -/
theorem test_tick : runs (asked [.tick] (timers 3 1 core0)) (fun t =>
      t.dt == 2 && t.st == 0 && t.toneStrobe) = true ∧
    runs (asked [.tick] core0) (fun t => t.dt == 0 && t.st == 0 && !t.toneStrobe) = true := by decide

/-- T-6. -/
theorem test_tick_halted : runs (asked [.tick] (timers 5 5 halted0)) (fun t =>
    t.dt == 5 && t.st == 5 && !t.toneStrobe) = true := by decide

/-- X-1: the zeroed memory at 0x200. -/
theorem test_unknown : runs (asked [.cycle 0 0] core0) (fun t =>
    haltedAt200 .unknownInstruction 0x0000 t && t.faultCodeOut == 1) = true := by decide

/-- X-4, X-5. -/
theorem test_load : runs (asked [.load 0x100 0x12] State.reset) (fun t => t.readByte 0x100 == 0) = true ∧
    runs (asked [.load 0x200 0x12] State.reset) (fun t => t.readByte 0x200 == 0x12) = true := by decide

/-- X-6, X-3. -/
theorem test_start : runs (asked [.start] State.reset) (fun t =>
      t.pc == 0x200 && t.phase == .run) = true ∧
    runs (asked [.start] halted0) (fun t => t.phase == .halted) = true := by decide

/-- X-7: the fetch wraps. -/
theorem test_fetch_wraps : runs (asked [.cycle 0 0] (bytes 0xFFF [0x12, 0x00] { core0 with pc := 0xFFF }))
    (fun t => t.cycle.word == 0x1200 && t.pc == 0x200) = true := by decide

/-- R166: reset leaves HALTED. -/
theorem test_reset : runs (asked [.reset] (timers 5 5 halted0)) (fun t =>
    t.phase == .load && t.fault == none && t.pc == 0 && t.dt == 0 && t.readByte 0x050 == 0xF0) = true := by
  decide

/-! ### Witnesses: states and operands that meet the hypotheses of each statement -/

theorem witness_decoded_word : decode 0x8FE4 = .ok (.addReg 15 14) := rfl

/-- The first and the last position of the table. -/
theorem witness_positions : 0 < opcodeTable.length ∧ 33 < opcodeTable.length ∧ (0 : Nat) ≠ 33 := by decide

/-- The last register pair, and addresses that pass 0xFFF. -/
theorem witness_stored_word : (14 : Nat) < (15 : Reg).val ∧
    ¬ (index 0xFFE core0).storeFaults (index 0xFFE core0).idx.toNat 16 := by decide

theorem witness_step_runs :
    (asked [.cycle 0 0] (bytes 0x200 [0x60, 0x10] core0)).aboutToRun 0 0 [] ∧
    decodeBytes [0x60, 0x10] = .ok (.ldByte 0 0x10, []) ∧
    (bytes 0x200 [0x60, 0x10] core0).readByte 0x200 = 0x60 ∧
    (bytes 0x200 [0x60, 0x10] core0).readByte 0x201 = 0x10 := by
  refine ⟨?_, rfl, ?_, ?_⟩ <;> decide

theorem witness_step_rejects : (asked [.cycle 0 0] core0).aboutToRun 0 0 [] ∧
    decodeBytes [core0.readByte core0.pc.toNat, core0.readByte (core0.pc.toNat + 1)] =
      .error .illegalZero := ⟨by decide, rfl⟩

theorem witness_idle : State.reset.requests = [] := rfl

theorem witness_outside_run :
    (asked [.tick] State.reset).phase ≠ .run ∧ (asked [.cycle 1 2] halted0).phase ≠ .run ∧
    (asked [.cycle 1 2] halted0).requests = [.cycle 1 2] := by decide

theorem witness_tick : (asked [.tick] (timers 0 0xFF core0)).phase = .run ∧
    (asked [.tick] (timers 0 0xFF core0)).requests = [.tick] := by decide

/-- Two ticks with ST = 1 and three with ST = 3: tick 1 is silent in the first, tick 2 sounds in the
second. -/
theorem witness_tone :
    (asked (List.replicate 2 Request.tick) (timers 0 1 core0)).requests =
      List.replicate (1 + 1) Request.tick ++ ([] : List Request) ∧
    (asked (List.replicate 3 Request.tick) (timers 0 3 core0)).requests =
      List.replicate (2 + 1) Request.tick ++ ([] : List Request) ∧
    (timers 0 3 core0).phase = .run := ⟨rfl, rfl, rfl⟩

theorem witness_reset : (asked [.reset, .start] halted0).requests = .reset :: [.start] := rfl

/-- The loader at both ends of its region, below it, and outside phase LOAD. -/
theorem witness_load : (asked [.load 0x200 1] State.reset).requests = [.load 0x200 1] ∧
    (asked [.load 0xFFF 1] State.reset).requests = [.load 0xFFF 1] ∧
    (asked [.load 0x1FF 1] State.reset).requests = [.load 0x1FF 1] ∧
    (asked [.load 0x200 1] core0).requests = [.load 0x200 1] := by decide

/-- An empty image and one of two bytes. -/
theorem witness_image : (asked (loadRequests [] ++ [.start]) State.reset).phase = .load ∧
    imageFits [] ∧ imageFits [0x12, 0x00] ∧
    (asked (loadRequests [0x12, 0x00] ++ [.start]) State.reset).requests =
      loadRequests [0x12, 0x00] ++ .start :: [] := ⟨rfl, by decide, by decide, rfl⟩

theorem witness_start : (asked [.start] State.reset).phase = .load ∧ (asked [.start] core0).phase ≠ .load ∧
    (asked [.start] core0).requests = [.start] := by decide

theorem witness_status : core0.fault = none ∧
    halted0.fault = some ⟨.unknownInstruction, 0x0000, 0x0200⟩ := by decide

/-- The last pixel. -/
theorem witness_pixel : 63 < 64 ∧ 31 < 32 := by decide

theorem witness_fault_in_cycle : (asked [.cycle 0 0] core0).aboutToRun 0 0 [] ∧
    ∃ t, step (asked [.cycle 0 0] core0) = .next t ∧ t.phase ≠ .run := by
  refine ⟨by decide, _, rfl, by decide⟩

theorem witness_unknown : (asked [.cycle 0 0] core0).fault = none ∧
    ∃ t, step (asked [.cycle 0 0] core0) = .next t ∧
      t.fault = some ⟨.unknownInstruction, 0x0000, 0x0200⟩ := by
  refine ⟨by decide, _, rfl, by decide⟩

/-- An instruction that faults and one that does not. -/
theorem witness_one_kind : (∃ t, exec .ret core0 = .next t ∧ t.phase = .halted) ∧
    ∃ t, exec .cls core0 = .next t ∧ t.phase = core0.phase :=
  ⟨⟨_, rfl, by decide⟩, ⟨_, rfl, by decide⟩⟩

/-- A halted core that takes a start, and a running core that faults. -/
theorem witness_record :
    (halted0.fault.isSome = true ↔ halted0.phase = .halted) ∧
    (asked [.start] halted0).requests.head? ≠ some .reset ∧
    ((asked [.cycle 0 0] core0).fault.isSome = true ↔ (asked [.cycle 0 0] core0).phase = .halted) ∧
    (asked [.cycle 0 0] core0).fault = none := by decide

/-- FX55 with X = 0 reads V0 alone: a vector that agrees on V0 only. -/
theorem witness_register_table : (∃ t, exec (.storeRegs 0) core0 = .next t) ∧
    ∀ k ∈ (Instr.storeRegs 0).regsRead,
      ((Vector.replicate 16 (7 : Byte)).set 0 0)[k.val] = core0.getV k :=
  ⟨⟨_, rfl⟩, by decide⟩

/-- VF changes as a flag, and as a named destination. -/
theorem witness_vf :
    (∃ t, exec (.shr 1 0) (regs [(1, 1)] core0) = .next t ∧ t.getV 15 ≠ (regs [(1, 1)] core0).getV 15) ∧
    ∃ t, exec (.ldByte 15 7) core0 = .next t ∧ t.getV 15 ≠ core0.getV 15 :=
  ⟨⟨_, rfl, by decide⟩, ⟨_, rfl, by decide⟩⟩

/-- A cycle at 0xFFFE, where the fetch increment wraps, without a fault and with one. -/
theorem witness_pc_after :
    ∃ s : State, s.phase = .run ∧ s.pc = s.cycle.addr + 2 ∧
      (∃ t, exec (.seByte 0 0) s = .next t ∧ t.phase = .run) ∧
      ∃ t, exec .ret s = .next t ∧ t.phase ≠ .run :=
  ⟨{ core0 with pc := 0, cycle := ⟨0, 0, 0xFFFE, 0⟩ }, by decide, by decide,
    ⟨_, rfl, by decide⟩, ⟨_, rfl, by decide⟩⟩

/-- Each state element does change in some instruction. -/
theorem witness_writers :
    (∃ t, exec (.ldByte 15 7) core0 = .next t ∧ t.getV 15 ≠ core0.getV 15) ∧
    (∃ t, exec (.jp 0xFFF) core0 = .next t ∧ t.pc ≠ core0.pc) ∧
    (∃ t, exec (.ldB 0) (index 0x04E core0) = .next t ∧ t.pc ≠ core0.pc) ∧
    (∃ t, exec (.ldI 0x300) core0 = .next t ∧ t.idx ≠ core0.idx) ∧
    (∃ t, exec (.call 0x300) core0 = .next t ∧ t.stack ≠ core0.stack) ∧
    (∃ t, exec (.ldDtVx 1) (regs [(1, 1)] core0) = .next t ∧ t.dt ≠ core0.dt) ∧
    (∃ t, exec (.ldStVx 1) (regs [(1, 1)] core0) = .next t ∧ t.st ≠ core0.st) ∧
    (∃ t, exec .cls (lit [(1, 1)] core0) = .next t ∧ t.disp ≠ (lit [(1, 1)] core0).disp) ∧
    (∃ t, exec (.storeRegs 1) (regs [(1, 1)] core0) = .next t ∧ t.mem ≠ core0.mem) ∧
    (∃ t, exec .ret core0 = .next t ∧ t.phase ≠ core0.phase ∧ t.fault ≠ core0.fault) ∧
    ∃ t, exec .cls core0 = .next t ∧ t.frameStrobe ≠ core0.frameStrobe :=
  ⟨⟨_, rfl, by decide⟩, ⟨_, rfl, by decide⟩, ⟨_, rfl, by decide⟩, ⟨_, rfl, by decide⟩, ⟨_, rfl, by decide⟩,
    ⟨_, rfl, by decide⟩, ⟨_, rfl, by decide⟩, ⟨_, rfl, by decide⟩, ⟨_, rfl, by decide⟩, ⟨_, rfl, by decide⟩,
    ⟨_, rfl, by decide⟩⟩

theorem witness_delay_rises : ∃ t, step (ready (regs [(4, 0x3C)]) 0xF415) = .next t ∧
    (ready (regs [(4, 0x3C)]) 0xF415).dt.toNat < t.dt.toNat := by
  refine ⟨_, rfl, by decide⟩

theorem witness_inputs : (∀ x nn, Instr.cls ≠ .rnd x nn) ∧
    (∀ x, Instr.cls ≠ .skp x ∧ Instr.cls ≠ .sknp x ∧ Instr.cls ≠ .ldVxK x) ∧
    ∃ t, exec .cls core0 = .next t := by
  refine ⟨fun _ _ h => Instr.noConfusion h, fun _ => ⟨?_, ?_, ?_⟩, _, rfl⟩ <;>
    exact fun h => Instr.noConfusion h

/-- A step that pulses each strobe. -/
theorem witness_strobes : (∃ t, step (ready id 0x00E0) = .next t ∧ t.frameStrobe = true) ∧
    ∃ t, step (asked [.tick] (timers 0 1 core0)) = .next t ∧ t.toneStrobe = true := by
  refine ⟨⟨_, rfl, by decide⟩, ⟨_, rfl, by decide⟩⟩

/-- Parked at 0x200, and at 0x1200, which reads the same word. -/
theorem witness_parked : (ready id 0x1200).parked ∧ (ready id 0x1200).aboutToRun 0 0 [] ∧
    { ready id 0x1200 with pc := 0x1200 }.parked := by decide

/-- Both ends of the font region. -/
theorem witness_font : core0.params.fontWrite = .fault ∧ (∃ t, exec (.ldB 0) core0 = .next t) ∧
    0x050 ≤ 0x1050 % 4096 ∧ 0x09F % 4096 ≤ 0x09F := ⟨rfl, ⟨_, rfl⟩, by decide, by decide⟩

theorem witness_draw_twice : ∃ t, exec (.drw 0 1 1) (index 0x050 core0) = .next t ∧
    (t.getV 0).toNat % 64 = ((index 0x050 core0).getV 0).toNat % 64 ∧
    (t.getV 1).toNat % 32 = ((index 0x050 core0).getV 1).toNat % 32 := by
  refine ⟨_, rfl, by decide, by decide⟩

theorem witness_draw_nothing : (0 : Fin 16) = 0 := rfl

theorem witness_return : (callers [0x1234, 0x0202] core0).stack = [0x1234] ++ [0x0202] ∧
    core0.stack = [] := by decide

/-- The last free entry, and a full stack. -/
theorem witness_call :
    (callers (List.replicate 15 0) core0).stack.length ≠ core0.params.stackDepth ∧
    (callers (List.replicate 16 0) core0).stack.length = core0.params.stackDepth := by decide

theorem witness_flag_destination : (14 : Reg) ≠ 15 ∧ (15 : Reg) = 15 := by decide

theorem witness_random : (random 0xFF core0).cycle.rnd = 0xFF := rfl

/-- Three bytes just below, at the edges of, and just above the font region. -/
theorem witness_decimal : ¬ (index 0x04D core0).storeFaults 0x04D 3 ∧
    (index 0x04E core0).storeFaults 0x04E 3 ∧ (index 0x09F core0).storeFaults 0x09F 3 ∧
    ¬ (index 0x0A0 core0).storeFaults 0x0A0 3 ∧
    ¬ (fontWritable core0).storeFaults 0x050 3 := by decide

theorem witness_store_regs : ¬ (index 0x040 core0).storeFaults 0x040 16 ∧
    (index 0x041 core0).storeFaults 0x041 16 ∧ (index 0x109F core0).storeFaults 0x109F 1 := by decide

/-- Key numbers 15 and 16, under both parameters. -/
theorem witness_keys : (regs [(5, 15)] core0).getV 5 = 15 ∧
    15 < ((regs [(5, 16)] core0).getV 5).toNat ∧ core0.params.keyRange = .fault ∧
    (keysNotHeld core0).params.keyRange = .notHeld := by decide

/-- No key; key 0; key 15 alone. -/
theorem witness_key_wait : core0.noKeyHeld ∧ (keys 1 core0).cycle.keys.getLsbD 0 = true ∧
    (keys 0x8000 core0).cycle.keys.getLsbD 15 = true ∧
    ∀ j < 15, (keys 0x8000 core0).cycle.keys.getLsbD j = false := by decide

theorem witness_parameters : Params.default.wf := by decide

/-- A state with nothing listed in memory and an invariant phase, fault record and stack meets `Inv`. -/
theorem inv_of_empty_memory (s : State) (hp : s.params.wf) (hm : s.mem = [])
    (hs : s.stack.length ≤ s.params.stackDepth) (hf : s.fault.isSome = true ↔ s.phase = .halted)
    (hl : s.phase = .load → s.pc = 0 ∧ s.idx = 0 ∧ s.stack = [] ∧ s.dt = 0 ∧ s.st = 0 ∧
      s.disp = Display.blank ∧ s.v = s.params.vReset) : s.Inv := by
  have hr : ∀ a, a < Config.memSize → s.readByte a = resetByte s.params a := fun a h => by
    rw [State.readByte, hm, Memory.read, reduce, Nat.mod_eq_of_lt h]
  refine ⟨hp, hm ▸ ⟨List.Pairwise.nil, by simp⟩, hs, hf, fun _ a h => hr a ?_, fun _ a h => hr a ?_, hl⟩
  · have h := of_decide_eq_true h
    simp only [Config.fontBase, Config.fontSize] at h
    simp only [Config.memSize]
    omega
  · simp only [Config.progBase] at h
    simp only [Config.memSize]
    omega

/-- The invariant holds in a state of each phase that is about to take a step: a start in LOAD, a
cycle in RUN that faults, a tick in RUN, and a reset in HALTED. -/
theorem witness_invariant :
    ((asked [.start] State.reset).Inv ∧ ∃ t, step (asked [.start] State.reset) = .next t) ∧
    ((asked [.cycle 0 0] core0).Inv ∧ ∃ t, step (asked [.cycle 0 0] core0) = .next t) ∧
    ((asked [.tick] (timers 5 5 core0)).Inv ∧ ∃ t, step (asked [.tick] (timers 5 5 core0)) = .next t) ∧
    ((asked [.reset] halted0).Inv ∧ ∃ t, step (asked [.reset] halted0) = .next t) := by
  refine ⟨⟨?_, _, rfl⟩, ⟨?_, _, rfl⟩, ⟨?_, _, rfl⟩, ⟨?_, _, rfl⟩⟩
  · exact inv_of_empty_memory _ (by decide) rfl (by decide) (by decide)
      fun _ => ⟨rfl, rfl, rfl, rfl, rfl, rfl, rfl⟩
  · exact inv_of_empty_memory _ (by decide) rfl (by decide) (by decide) fun h => nomatch h
  · exact inv_of_empty_memory _ (by decide) rfl (by decide) (by decide) fun h => nomatch h
  · exact inv_of_empty_memory _ (by decide) rfl (by decide) (by decide) fun h => nomatch h

end Sys2Proof.Tests
end

section
/-!
PROOFS. The six fields of a word (spec/30_encoding.md R74): the number in each field, and the two overlaps.
-/

namespace Sys2Proof

/-- Bits `start + len - 1` down to `start` of a word, read as a number. -/
theorem toNat_extractLsb'_eq_div_mod (w : Word) (start len : Nat) :
    (w.extractLsb' start len).toNat = w.toNat / 2 ^ start % 2 ^ len := by
  rw [BitVec.extractLsb'_toNat, Nat.shiftRight_eq_div_pow]

namespace Fields
variable (w : Word)

/-- No reduction is needed here: the word ends at bit 15. -/
theorem toNat_ofWord_op : (ofWord w).op.toNat = w.toNat / 4096 := by
  have hw : w.toNat < 65536 := w.isLt
  calc (ofWord w).op.toNat = w.toNat / 4096 % 16 := toNat_extractLsb'_eq_div_mod w 12 4
    _ = w.toNat / 4096 := Nat.mod_eq_of_lt (by omega)

theorem toNat_ofWord_x : (ofWord w).x.toNat = w.toNat / 256 % 16 :=
  toNat_extractLsb'_eq_div_mod w 8 4

theorem toNat_ofWord_y : (ofWord w).y.toNat = w.toNat / 16 % 16 :=
  toNat_extractLsb'_eq_div_mod w 4 4

theorem toNat_ofWord_n : (ofWord w).n.toNat = w.toNat % 16 :=
  BitVec.extractLsb'_toNat 0 4 w

theorem toNat_ofWord_nn : (ofWord w).nn.toNat = w.toNat % 256 :=
  BitVec.extractLsb'_toNat 0 8 w

theorem toNat_ofWord_nnn : (ofWord w).nnn.toNat = w.toNat % 4096 :=
  BitVec.extractLsb'_toNat 0 12 w

/-- The Y and N fields lie side by side, and NN spans both. -/
theorem ofWord_nn_eq_append : (ofWord w).nn = (ofWord w).y ++ (ofWord w).n :=
  (BitVec.extractLsb'_append_extractLsb'_eq_extractLsb' (start₁ := 0) (len₁ := 4) rfl).symm

/-- The X field lies above NN, so NNN spans X, Y and N. -/
theorem ofWord_nnn_eq_append :
    (ofWord w).nnn = (ofWord w).x ++ (ofWord w).y ++ (ofWord w).n := by
  have hxy : (ofWord w).x ++ (ofWord w).y = w.extractLsb' 4 8 :=
    BitVec.extractLsb'_append_extractLsb'_eq_extractLsb' (start₁ := 4) (len₁ := 4) rfl
  have hxyn : w.extractLsb' 4 8 ++ (ofWord w).n = (ofWord w).nnn :=
    BitVec.extractLsb'_append_extractLsb'_eq_extractLsb' (start₁ := 0) (len₁ := 4) rfl
  rw [hxy, hxyn]

end Fields

/-- Settles O6: each field is one extraction (R74), and two extractions side by side join to one. -/
theorem fieldsOfEveryWord : Obligations.FieldsOfEveryWord := fun w =>
  ⟨Fields.toNat_ofWord_op w, Fields.toNat_ofWord_x w, Fields.toNat_ofWord_y w,
    Fields.toNat_ofWord_n w, Fields.toNat_ofWord_nn w, Fields.toNat_ofWord_nnn w,
    Fields.ofWord_nn_eq_append w, Fields.ofWord_nnn_eq_append w⟩

end Sys2Proof
end

section
/-!
PROOFS. The conditional skips on an immediate and on two registers (spec/42_flow.md R111 to R114): their
words, the state each goes to, and where `pc` ends.
-/

namespace Sys2Proof

theorem decode_encode_seByte (x : Reg) (nn : Byte) :
    decode (encode (.seByte x nn)) = .ok (.seByte x nn) := by
  obtain ⟨hop, hx, hnn⟩ := fields_packXNN 0x3 x nn
  rw [encode, decode, dispatch, hop, hx, hnn]
  simp

theorem decode_encode_sneByte (x : Reg) (nn : Byte) :
    decode (encode (.sneByte x nn)) = .ok (.sneByte x nn) := by
  obtain ⟨hop, hx, hnn⟩ := fields_packXNN 0x4 x nn
  rw [encode, decode, dispatch, hop, hx, hnn]
  simp

theorem decode_encode_seReg (x y : Reg) : decode (encode (.seReg x y)) = .ok (.seReg x y) := by
  obtain ⟨hop, hx, hy, hn⟩ := fields_packXYN 0x5 x y 0x0
  rw [encode, decode, dispatch, hop, hx, hy, hn]
  simp

theorem decode_encode_sneReg (x y : Reg) : decode (encode (.sneReg x y)) = .ok (.sneReg x y) := by
  obtain ⟨hop, hx, hy, hn⟩ := fields_packXYN 0x9 x y 0x0
  rw [encode, decode, dispatch, hop, hx, hy, hn]
  simp

namespace Machine

theorem encodedAs_seByte (x : Reg) (nn : Byte) : EncodedAs (.seByte x nn) 0x3000 0xF000 :=
  ⟨(packXNN_and 0x3 x nn).1, decode_encode_seByte x nn⟩

theorem encodedAs_sneByte (x : Reg) (nn : Byte) : EncodedAs (.sneByte x nn) 0x4000 0xF000 :=
  ⟨(packXNN_and 0x4 x nn).1, decode_encode_sneByte x nn⟩

theorem encodedAs_seReg (x y : Reg) : EncodedAs (.seReg x y) 0x5000 0xF00F :=
  ⟨(packXYN_and 0x5 x y 0x0).2, decode_encode_seReg x y⟩

theorem encodedAs_sneReg (x y : Reg) : EncodedAs (.sneReg x y) 0x9000 0xF00F :=
  ⟨(packXYN_and 0x9 x y 0x0).2, decode_encode_sneReg x y⟩

section
variable (s : State) (x y : Reg) (nn a b : Byte)

theorem exec_seByte : exec (.seByte x nn) s = .next (s.skipIf (s.getV x == nn)) := rfl

theorem exec_sneByte : exec (.sneByte x nn) s = .next (s.skipIf (s.getV x != nn)) := rfl

theorem exec_seReg : exec (.seReg x y) s = .next (s.skipIf (s.getV x == s.getV y)) := rfl

theorem exec_sneReg : exec (.sneReg x y) s = .next (s.skipIf (s.getV x != s.getV y)) := rfl

/-- A skip on equality, the condition of R111 and R113. -/
theorem State.skipIf_beq_pc_toNat :
    (s.skipIf (a == b)).pc.toNat = if a = b then (s.pc.toNat + 2) % 65536 else s.pc.toNat := by
  simp only [State.skipIf_pc_toNat, beq_iff_eq]

/-- A skip on inequality, the condition of R112 and R114: the branches change places. -/
theorem State.skipIf_bne_pc_toNat :
    (s.skipIf (a != b)).pc.toNat = if a = b then s.pc.toNat else (s.pc.toNat + 2) % 65536 := by
  simp only [State.skipIf_pc_toNat, bne_iff_ne, ite_not]

end

end Machine

open Machine

/-- Settles O43: 3XNN skips on equality with NN (R111), 4XNN on inequality (R112). -/
theorem skipsOnAnImmediate : Obligations.SkipsOnAnImmediate := fun x nn =>
  ⟨encodedAs_seByte x nn, encodedAs_sneByte x nn, fun s =>
    ⟨⟨_, exec_seByte s x nn, s.skipIf_frame _, s.skipIf_beq_pc_toNat _ _⟩,
      ⟨_, exec_sneByte s x nn, s.skipIf_frame _, s.skipIf_bne_pc_toNat _ _⟩⟩⟩

/-- Settles O44: 5XY0 skips on equal registers (R113), 9XY0 on unequal ones (R114). -/
theorem skipsOnTwoRegisters : Obligations.SkipsOnTwoRegisters := fun x y =>
  ⟨encodedAs_seReg x y, encodedAs_sneReg x y, fun s =>
    ⟨⟨_, exec_seReg s x y, s.skipIf_frame _, s.skipIf_beq_pc_toNat _ _⟩,
      ⟨_, exec_sneReg s x y, s.skipIf_frame _, s.skipIf_bne_pc_toNat _ _⟩⟩⟩

end Sys2Proof
end

section
/-!
PROOFS. Load and add of an immediate (spec/43_alu.md R117, R118): their words, and the one register write
that each is.
-/

namespace Sys2Proof

theorem decode_encode_ldByte (x : Reg) (nn : Byte) :
    decode (encode (.ldByte x nn)) = .ok (.ldByte x nn) := by
  obtain ⟨hop, hx, hnn⟩ := fields_packXNN 0x6 x nn
  rw [encode, decode, dispatch, hop, hx, hnn]
  simp

theorem decode_encode_addByte (x : Reg) (nn : Byte) :
    decode (encode (.addByte x nn)) = .ok (.addByte x nn) := by
  obtain ⟨hop, hx, hnn⟩ := fields_packXNN 0x7 x nn
  rw [encode, decode, dispatch, hop, hx, hnn]
  simp

namespace Machine

theorem encodedAs_ldByte (x : Reg) (nn : Byte) : EncodedAs (.ldByte x nn) 0x6000 0xF000 :=
  ⟨(packXNN_and 0x6 x nn).1, decode_encode_ldByte x nn⟩

theorem encodedAs_addByte (x : Reg) (nn : Byte) : EncodedAs (.addByte x nn) 0x7000 0xF000 :=
  ⟨(packXNN_and 0x7 x nn).1, decode_encode_addByte x nn⟩

section
variable (s : State) (x : Reg) (nn : Byte)

theorem exec_ldByte : exec (.ldByte x nn) s = .next (s.setV x nn) := rfl

theorem exec_addByte : exec (.addByte x nn) s = .next (s.setV x (s.getV x + nn)) := rfl

/-- The sum wraps at 8 bits (R118), for X = F too: no flag is written after it. -/
theorem State.getV_setV_add_toNat :
    ((s.setV x (s.getV x + nn)).getV x).toNat = ((s.getV x).toNat + nn.toNat) % 256 := by
  rw [State.getV_setV_same, BitVec.toNat_add]

end

end Machine

open Machine

/-- Settles O45: 6XNN and 7XNN are one register write each, of NN (R117) and of the wrapped sum (R118). -/
theorem immediateLoadAndAdd : Obligations.ImmediateLoadAndAdd := fun x nn =>
  ⟨encodedAs_ldByte x nn, encodedAs_addByte x nn, fun s =>
    ⟨⟨_, exec_ldByte s x nn, s.getV_setV_same x nn, s.setV_frame x _⟩,
      ⟨_, exec_addByte s x nn, s.getV_setV_add_toNat x nn, s.setV_frame x _⟩⟩⟩

end Sys2Proof
end

section
/-!
PROOFS. UNKNOWN_INSTRUCTION (spec/60_exceptions.md R144): the decoder rejects exactly the words that no row of
the opcode table accepts (spec/30_encoding.md R80, R82), no instruction raises this fault, and no step other
than a cycle in phase RUN raises any.
-/

namespace Sys2Proof

/-! ### A word under the masks of the table

The fields of the row's bits are written as extractions, so that they evaluate on the table's literals. -/

namespace Fields

theorem packNNN_ofWord (w : Word) : packNNN (ofWord w).op (ofWord w).nnn = w :=
  (BitVec.extractLsb'_append_extractLsb'_eq_extractLsb' (start₁ := 0) (len₁ := 12) rfl).trans
    BitVec.extractLsb'_eq_self

theorem ofWord_op_append_x (w : Word) : (ofWord w).op ++ (ofWord w).x = highByte w :=
  BitVec.extractLsb'_append_extractLsb'_eq_extractLsb' (start₁ := 8) (len₁ := 4) rfl

theorem packXNN_ofWord (w : Word) :
    packXNN (ofWord w).op (nibbleToFin (ofWord w).x) (ofWord w).nn = w := by
  rw [packXNN, finToNibble_nibbleToFin, ofWord_op_append_x]
  exact wordOfBytes_highByte_lowByte w

theorem packXYN_ofWord (w : Word) :
    packXYN (ofWord w).op (nibbleToFin (ofWord w).x) (nibbleToFin (ofWord w).y) (ofWord w).n = w := by
  have hxy : highByte w ++ (ofWord w).y = w.extractLsb' 4 12 :=
    BitVec.extractLsb'_append_extractLsb'_eq_extractLsb' (start₁ := 4) (len₁ := 4) rfl
  rw [packXYN, finToNibble_nibbleToFin, finToNibble_nibbleToFin, ofWord_op_append_x, hxy]
  exact (BitVec.extractLsb'_append_extractLsb'_eq_extractLsb' (start₁ := 0) (len₁ := 4) rfl).trans
    BitVec.extractLsb'_eq_self

section
variable (w b : Word) (op n : BitVec 4) (x y : Reg) (nn : Byte) (nnn : Addr)

theorem packNNN_eq_iff :
    packNNN op nnn = b ↔ op = b.extractLsb' 12 4 ∧ nnn = b.extractLsb' 0 12 := by
  constructor
  · rintro rfl
    obtain ⟨hop, hnnn⟩ := fields_packNNN op nnn
    exact ⟨hop.symm, hnnn.symm⟩
  · rintro ⟨rfl, rfl⟩
    exact packNNN_ofWord b

theorem packXNN_eq_iff : packXNN op x nn = b ↔
    op = b.extractLsb' 12 4 ∧ x = nibbleToFin (b.extractLsb' 8 4) ∧ nn = b.extractLsb' 0 8 := by
  constructor
  · rintro rfl
    obtain ⟨hop, hx, hnn⟩ := fields_packXNN op x nn
    exact ⟨hop.symm, congrArg nibbleToFin hx.symm, hnn.symm⟩
  · rintro ⟨rfl, rfl, rfl⟩
    exact packXNN_ofWord b

theorem packXYN_eq_iff : packXYN op x y n = b ↔
    op = b.extractLsb' 12 4 ∧ x = nibbleToFin (b.extractLsb' 8 4) ∧
      y = nibbleToFin (b.extractLsb' 4 4) ∧ n = b.extractLsb' 0 4 := by
  constructor
  · rintro rfl
    obtain ⟨hop, hx, hy, hn⟩ := fields_packXYN op x y n
    exact ⟨hop.symm, congrArg nibbleToFin hx.symm, congrArg nibbleToFin hy.symm, hn.symm⟩
  · rintro ⟨rfl, rfl, rfl, rfl⟩
    exact packXYN_ofWord b

/-- The whole word is compared (00E0, 00EE). -/
theorem and_FFFF_eq_iff : w &&& 0xFFFF = b ↔
    (ofWord w).op = b.extractLsb' 12 4 ∧ (ofWord w).nnn = b.extractLsb' 0 12 := by
  rw [show (0xFFFF : Word) = BitVec.allOnes 16 from rfl, BitVec.and_allOnes, ← packNNN_eq_iff,
    packNNN_ofWord]

/-- Only the family nibble is compared. -/
theorem and_F000_eq_iff : w &&& 0xF000 = b ↔
    (ofWord w).op = b.extractLsb' 12 4 ∧ 0 = b.extractLsb' 0 12 := by
  rw [← packNNN_eq_iff, ← packNNN_and _ (ofWord w).nnn, packNNN_ofWord]

/-- The family nibble and NN are compared (families E and F). -/
theorem and_F0FF_eq_iff : w &&& 0xF0FF = b ↔
    (ofWord w).op = b.extractLsb' 12 4 ∧ 0 = nibbleToFin (b.extractLsb' 8 4) ∧
      (ofWord w).nn = b.extractLsb' 0 8 := by
  rw [← packXNN_eq_iff, ← (packXNN_and _ (nibbleToFin (ofWord w).x) _).2, packXNN_ofWord]

/-- The family nibble and N are compared (families 5, 8 and 9). -/
theorem and_F00F_eq_iff : w &&& 0xF00F = b ↔
    (ofWord w).op = b.extractLsb' 12 4 ∧ 0 = nibbleToFin (b.extractLsb' 8 4) ∧
      0 = nibbleToFin (b.extractLsb' 4 4) ∧ (ofWord w).n = b.extractLsb' 0 4 := by
  rw [← packXYN_eq_iff,
    ← (packXYN_and _ (nibbleToFin (ofWord w).x) (nibbleToFin (ofWord w).y) _).2, packXYN_ofWord]

end

end Fields

/-! ### The decoder against the table -/

theorem nibble_cases (b : BitVec 4) : b = 0x0 ∨ b = 0x1 ∨ b = 0x2 ∨ b = 0x3 ∨ b = 0x4 ∨ b = 0x5 ∨
    b = 0x6 ∨ b = 0x7 ∨ b = 0x8 ∨ b = 0x9 ∨ b = 0xA ∨ b = 0xB ∨ b = 0xC ∨ b = 0xD ∨ b = 0xE ∨
    b = 0xF := by
  revert b; decide

section
variable (e : Reject) (i : Instr)

@[simp] theorem isOk_error : (.error e : Except Reject Instr).isOk = false := rfl

@[simp] theorem isOk_ok : (.ok i : Except Reject Instr).isOk = true := rfl

/-- One test of a decoder: it rejects when the test fails and the tests after it reject. -/
theorem isOk_ite_ok_eq_false (p : Prop) [Decidable p] (o : Except Reject Instr) :
    (if p then .ok i else o).isOk = false ↔ ¬p ∧ o.isOk = false := by
  by_cases hp : p <;> simp [hp]

end

/-- R80 and R82: both sides are conditions on the fields, and they agree in each of the sixteen families. -/
theorem decode_rejects_iff (w : Word) :
    (decode w).isOk = false ↔ ∀ r ∈ opcodeTable, w &&& r.mask ≠ r.bits := by
  simp only [opcodeTable, opcodeRowsFlow, opcodeRowsAlu, opcodeRowsOther, List.cons_append,
    List.nil_append, List.forall_mem_cons, ne_eq, Fields.and_FFFF_eq_iff, Fields.and_F000_eq_iff,
    Fields.and_F0FF_eq_iff, Fields.and_F00F_eq_iff, decode]
  generalize Fields.ofWord w = f
  rcases nibble_cases f.op with h | h | h | h | h | h | h | h | h | h | h | h | h | h | h | h <;>
    simp [dispatch, h, nibbleToFin, decodeZero, decodeEight, decodeKey, decodeMisc, isOk_ite_ok_eq_false,
      and_left_comm]

namespace Machine

/-! ### What an instruction does to the phase and the fault record -/

/-- An outcome from `s` that keeps the phase and the fault record, or takes the fault `kind` (R143, R149). -/
def KeepsOrRaises (kind : Option FaultCode) (s : State) (o : Host.Outcome State Fault Refusal) : Prop :=
  (∃ t, o = .next t ∧ t.phase = s.phase ∧ t.fault = s.fault) ∨
    ∃ code, kind = some code ∧ o = .next (takeFault code s)

theorem State.shiftInPlace_phase (s : State) (x : Reg) (flag result : Byte → Byte) :
    (s.shiftInPlace x flag result).phase = s.phase := by
  rw [State.shiftInPlace_eq]

theorem State.shiftInPlace_fault (s : State) (x : Reg) (flag result : Byte → Byte) :
    (s.shiftInPlace x flag result).fault = s.fault := by
  rw [State.shiftInPlace_eq]

theorem State.storeBytes_keepsOrRaises (s : State) (a : Nat) (bs : List Byte) :
    KeepsOrRaises (some .fontWrite) s (.next (s.storeBytes a bs)) := by
  rcases s.storeBytes_cases a bs with ⟨-, -, hfault⟩ | ⟨-, hwrite⟩
  · exact .inr ⟨_, rfl, congrArg _ hfault⟩
  · exact .inl ⟨_, congrArg _ hwrite, s.writeBytes_phase a bs, s.writeBytes_fault a bs⟩

/-- R149: the fault an instruction can raise is the one that `Instr.faultKind` names. -/
theorem exec_keepsOrRaises (i : Instr) (s : State) : KeepsOrRaises i.faultKind s (exec i s) := by
  cases i with
  | ret =>
    rw [exec, execRet]
    split
    · exact .inr ⟨_, rfl, rfl⟩
    · exact .inl ⟨_, rfl, rfl, rfl⟩
  | call nnn =>
    rw [exec, execCall]
    split
    · exact .inr ⟨_, rfl, rfl⟩
    · exact .inl ⟨_, rfl, rfl, rfl⟩
  | skp x =>
    rw [exec, execSkp]
    split
    · exact .inr ⟨_, rfl, rfl⟩
    · exact .inl ⟨_, rfl, s.skipIf_phase _, s.skipIf_fault _⟩
  | sknp x =>
    rw [exec, execSknp]
    split
    · exact .inr ⟨_, rfl, rfl⟩
    · exact .inl ⟨_, rfl, s.skipIf_phase _, s.skipIf_fault _⟩
  | ldVxK x =>
    rw [exec, execLdVxK]
    split
    · exact .inl ⟨_, rfl, s.rewind_phase, s.rewind_fault⟩
    · exact .inl ⟨_, rfl, rfl, rfl⟩
  | ldB | storeRegs => exact s.storeBytes_keepsOrRaises _ _
  | seByte | sneByte | seReg | sneReg => exact .inl ⟨_, rfl, s.skipIf_phase _, s.skipIf_fault _⟩
  | shr | shl => exact .inl ⟨_, rfl, s.shiftInPlace_phase .., s.shiftInPlace_fault ..⟩
  | loadRegs x =>
    have hrest := (s.loadLoop_frame (Reg.upTo x)).rest
    exact .inl ⟨_, rfl, (congrArg State.phase hrest :), (congrArg State.fault hrest :)⟩
  | _ => exact .inl ⟨_, rfl, rfl, rfl⟩

theorem faultKind_ne_unknownInstruction (i : Instr) : i.faultKind ≠ some .unknownInstruction := by
  cases i <;> simp [Instr.faultKind]

/-! ### What a step does to the fault record -/

/-- The record says UNKNOWN_INSTRUCTION. -/
abbrev State.unknownRecorded (t : State) : Prop :=
  ∃ w a, t.fault = some ⟨.unknownInstruction, w, a⟩

theorem KeepsOrRaises.not_unknownRecorded {kind : Option FaultCode} {s t : State}
    (h : KeepsOrRaises kind s (.next t)) (hkind : kind ≠ some .unknownInstruction)
    (hs : s.fault = none) : ¬ t.unknownRecorded := by
  rintro ⟨w, a, hrec⟩
  rcases h with ⟨t', ht, -, hkept⟩ | ⟨code, hcode, ht⟩
  · cases ht
    simp [hkept, hs] at hrec
  · cases ht
    simp only [takeFault_fault, Option.some.injEq, FaultRecord.mk.injEq] at hrec
    obtain ⟨rfl, -, -⟩ := hrec
    exact hkind hcode

@[simp] theorem State.takeLoad_fault (s : State) (a : Addr) (b : Byte) :
    (s.takeLoad a b).fault = s.fault := by
  unfold State.takeLoad
  cases s.phase with
  | load => dsimp only; split <;> rfl
  | run => rfl
  | halted => rfl

@[simp] theorem State.takeStart_fault (s : State) : s.takeStart.fault = s.fault := by
  unfold State.takeStart
  cases s.phase <;> rfl

@[simp] theorem State.takeTick_fault (s : State) : s.takeTick.fault = s.fault := by
  unfold State.takeTick
  cases s.phase <;> rfl

theorem State.takeCycle_of_phase_ne_run (s : State) (keys : BitVec 16) (rnd : Byte)
    (h : s.phase ≠ .run) : s.takeCycle keys rnd = .next s := by
  unfold State.takeCycle
  cases hphase : s.phase with
  | run => exact absurd hphase h
  | load => rfl
  | halted => rfl

theorem State.executeFetched_of_decode_ok {s : State} {i : Instr} (h : decode s.cycle.word = .ok i) :
    s.executeFetched = exec i s := by
  rw [State.executeFetched_eq, h]

theorem State.executeFetched_of_decode_error {s : State} {e : Reject}
    (h : decode s.cycle.word = .error e) :
    s.executeFetched = .next (takeFault .unknownInstruction s) := by
  rw [State.executeFetched_eq, h]

/-- The state in which the next cycle of `s` decodes and dispatches the word at `pc` (R91). -/
def State.fetched (s : State) (keys : BitVec 16) (rnd : Byte) (rest : List Request) : State :=
  { s with requests := rest }.lowerStrobes.beginCycle keys rnd

section
variable (s : State) (keys : BitVec 16) (rnd : Byte) (rest : List Request)

theorem State.fetched_word : (s.fetched keys rnd rest).cycle.word = s.fetch s.pc.toNat := rfl

theorem State.fetched_addr : (s.fetched keys rnd rest).cycle.addr = s.pc := rfl

theorem State.fetched_fault : (s.fetched keys rnd rest).fault = s.fault := rfl

end

section
variable {s t : State} {keys : BitVec 16} {rnd : Byte} {rest : List Request}

theorem step_of_requests_nil (h : s.requests = []) : step s = .next s.idle := by
  rw [step, h]

theorem step_of_requests_cons {r : Request} (h : s.requests = r :: rest) :
    step s = { s with requests := rest }.takeRequest r := by
  rw [step, h]

theorem step_of_aboutToRun (h : s.aboutToRun keys rnd rest) :
    step s = (s.fetched keys rnd rest).executeFetched := by
  obtain ⟨hrun, hreq⟩ := h
  simp [step_of_requests_cons hreq, State.takeRequest, State.takeCycle, hrun, State.fetched]

/-- R144: a word that no row accepts is recorded with the address it was fetched from. -/
theorem step_fault_of_no_row (h : s.aboutToRun keys rnd rest)
    (hill : ∀ r ∈ opcodeTable, s.fetch s.pc.toNat &&& r.mask ≠ r.bits) (hstep : step s = .next t) :
    t.fault = some ⟨.unknownInstruction, s.fetch s.pc.toNat, s.pc⟩ := by
  rw [← decode_rejects_iff, ← s.fetched_word keys rnd rest] at hill
  cases hdec : decode (s.fetched keys rnd rest).cycle.word with
  | ok i => simp [hdec] at hill
  | error e =>
    rw [step_of_aboutToRun h, State.executeFetched_of_decode_error hdec] at hstep
    cases hstep
    rw [takeFault_fault, State.fetched_word, State.fetched_addr]

/-- A word that some row accepts is dispatched to an instruction, which raises no UNKNOWN_INSTRUCTION. -/
theorem not_unknownRecorded_of_row (h : s.aboutToRun keys rnd rest)
    (hleg : ¬ ∀ r ∈ opcodeTable, s.fetch s.pc.toNat &&& r.mask ≠ r.bits) (hs : s.fault = none)
    (hstep : step s = .next t) : ¬ t.unknownRecorded := by
  rw [← decode_rejects_iff, ← s.fetched_word keys rnd rest] at hleg
  cases hdec : decode (s.fetched keys rnd rest).cycle.word with
  | ok i =>
    rw [step_of_aboutToRun h, State.executeFetched_of_decode_ok hdec] at hstep
    have hexec := exec_keepsOrRaises i (s.fetched keys rnd rest)
    rw [hstep] at hexec
    exact hexec.not_unknownRecorded (faultKind_ne_unknownInstruction i) (by rwa [State.fetched_fault])
  | error e => simp [hdec] at hleg

/-- No step but a cycle in phase RUN raises a fault. -/
theorem step_fault_of_not_aboutToRun (h : ¬ ∃ keys rnd rest, s.aboutToRun keys rnd rest)
    (hs : s.fault = none) (hstep : step s = .next t) : t.fault = none := by
  cases hreq : s.requests with
  | nil =>
    rw [step_of_requests_nil hreq] at hstep
    cases hstep
    exact hs
  | cons r rest =>
    rw [step_of_requests_cons hreq] at hstep
    cases r with
    | reset => cases hstep; rfl
    | load | start | tick => cases hstep; simpa using hs
    | cycle keys rnd =>
      have hphase : s.phase ≠ .run := fun hrun => h ⟨keys, rnd, rest, hrun, hreq⟩
      rw [State.takeRequest, State.takeCycle_of_phase_ne_run _ _ _ (by simpa using hphase)] at hstep
      cases hstep
      exact hs

end

end Machine

open Machine

/-- Settles O25: in a cycle an illegal word is recorded whole with its address, a legal one goes to an
instruction, which raises other faults only (R149), and no other step raises a fault. -/
theorem unknownInstructionExactlyOnIllegalWords :
    Obligations.UnknownInstructionExactlyOnIllegalWords := by
  intro s t hs hstep
  by_cases hrun : ∃ keys rnd rest, s.aboutToRun keys rnd rest
  · obtain ⟨keys, rnd, rest, h⟩ := id hrun
    by_cases hill : ∀ r ∈ opcodeTable, s.fetch s.pc.toNat &&& r.mask ≠ r.bits
    · have hrec := step_fault_of_no_row h hill hstep
      refine ⟨iff_of_true ⟨_, _, hrec⟩ ⟨hrun, hill⟩, fun w a hwa => ?_⟩
      rw [hrec] at hwa
      cases hwa
      exact ⟨rfl, rfl⟩
    · have hno := not_unknownRecorded_of_row h hill hs hstep
      exact ⟨iff_of_false hno fun hx => hill hx.2, fun w a hwa => absurd ⟨w, a, hwa⟩ hno⟩
  · have hnone := step_fault_of_not_aboutToRun hrun hs hstep
    have hno : ¬ t.unknownRecorded := by simp [hnone]
    exact ⟨iff_of_false hno fun hx => hrun hx.1, fun w a hwa => absurd ⟨w, a, hwa⟩ hno⟩

end Sys2Proof
end

section
/-!
PROOFS. The decoder, the encoder and the opcode table on every word (spec/30_encoding.md R76 to R82): the round
trips in both directions, the row of a decoded word, the illegal words by family, and disjoint patterns.
-/

namespace Sys2Proof

/-! ### Decode of encode -/

/-- R76 and R80: the fields packed into a word are those that the dispatch reads from it. -/
theorem decode_encode (i : Instr) : decode (encode i) = .ok i := by
  cases i with
  | cls | ret => rfl
  | jp nnn | call nnn | ldI nnn | jpV0 nnn => simp [encode, decode, dispatch, fields_packNNN]
  | seByte x nn | sneByte x nn | ldByte x nn | addByte x nn | rnd x nn =>
    simp [encode, decode, dispatch, fields_packXNN]
  | seReg x y | sneReg x y | drw x y n => simp [encode, decode, dispatch, fields_packXYN]
  | ldReg x y | orReg x y | andReg x y | xorReg x y | addReg x y | subReg x y | shr x y | subnReg x y
  | shl x y => simp [encode, decode, dispatch, decodeEight, fields_packXYN]
  | skp x | sknp x => simp [encode, decode, dispatch, decodeKey, fields_packXNN]
  | ldVxDt x | ldDtVx x | ldStVx x | addI x | ldVxK x | ldF x | ldB x | storeRegs x | loadRegs x =>
    simp [encode, decode, dispatch, decodeMisc, fields_packXNN]

/-- Settles O1, by `decode_encode`. -/
theorem decodeOfEncodeIsTheInstruction : Obligations.DecodeOfEncodeIsTheInstruction := decode_encode

/-! ### Encode of decode: each family's decoder answers the instruction of its own fields -/

section
variable {f : Fields} {i : Instr}

theorem encode_of_decodeZero (h : decodeZero f = .ok i) : encode i = packNNN 0x0 f.nnn := by
  unfold decodeZero at h
  split_ifs at h with h1 h2 <;> cases h
  · rw [h1]; rfl
  · rw [h2]; rfl

theorem encode_of_decodeEight (h : decodeEight f = .ok i) :
    encode i = packXYN 0x8 (nibbleToFin f.x) (nibbleToFin f.y) f.n := by
  unfold decodeEight at h
  split_ifs at h with hn hn hn hn hn hn hn hn hn <;> cases h <;> rw [hn] <;> rfl

theorem encode_of_decodeKey (h : decodeKey f = .ok i) :
    encode i = packXNN 0xE (nibbleToFin f.x) f.nn := by
  unfold decodeKey at h
  split_ifs at h with hnn hnn <;> cases h <;> rw [hnn] <;> rfl

theorem encode_of_decodeMisc (h : decodeMisc f = .ok i) :
    encode i = packXNN 0xF (nibbleToFin f.x) f.nn := by
  unfold decodeMisc at h
  split_ifs at h with hnn hnn hnn hnn hnn hnn hnn hnn hnn <;> cases h <;> rw [hnn] <;> rfl

end

/-- R79: the dispatch answers an instruction whose encoding packs the fields again, in one of the three formats. -/
theorem encode_of_dispatch {f : Fields} {i : Instr} (h : dispatch f = .ok i) :
    encode i = packNNN f.op f.nnn ∨ encode i = packXNN f.op (nibbleToFin f.x) f.nn ∨
      encode i = packXYN f.op (nibbleToFin f.x) (nibbleToFin f.y) f.n := by
  rcases nibble_cases f.op with
    ho | ho | ho | ho | ho | ho | ho | ho | ho | ho | ho | ho | ho | ho | ho | ho <;>
    simp only [dispatch, ho, BitVec.reduceEq, reduceIte] at h ⊢
  · exact .inl (encode_of_decodeZero h)
  · exact .inl (by cases h; rfl)
  · exact .inl (by cases h; rfl)
  · exact .inr (.inl (by cases h; rfl))
  · exact .inr (.inl (by cases h; rfl))
  · split_ifs at h with hn
    exact .inr (.inr (by cases h; rw [hn]; rfl))
  · exact .inr (.inl (by cases h; rfl))
  · exact .inr (.inl (by cases h; rfl))
  · exact .inr (.inr (encode_of_decodeEight h))
  · split_ifs at h with hn
    exact .inr (.inr (by cases h; rw [hn]; rfl))
  · exact .inl (by cases h; rfl)
  · exact .inl (by cases h; rfl)
  · exact .inr (.inl (by cases h; rfl))
  · exact .inr (.inr (by cases h; rfl))
  · exact .inr (.inl (encode_of_decodeKey h))
  · exact .inr (.inl (encode_of_decodeMisc h))

/-- R87: the fields packed again are the word, in each format. -/
theorem encode_of_decode {w : Word} {i : Instr} (h : decode w = .ok i) : encode i = w := by
  rcases encode_of_dispatch h with hi | hi | hi
  · exact hi.trans (Fields.packNNN_ofWord w)
  · exact hi.trans (Fields.packXNN_ofWord w)
  · exact hi.trans (Fields.packXYN_ofWord w)

/-- Settles O2, by `encode_of_decode`. -/
theorem encodeOfDecodeIsTheWord : Obligations.EncodeOfDecodeIsTheWord := fun _ _ => encode_of_decode

/-! ### The decoder against the opcode table -/

open Laws.MatchesRow in
/-- R80, for the instructions together. -/
theorem matchesRow (i : Instr) : Laws.MatchesRow.Statement i :=
  match i with
  | .cls => cls
  | .ret => ret
  | .jp nnn => jp nnn
  | .call nnn => call nnn
  | .seByte x nn => seByte x nn
  | .sneByte x nn => sneByte x nn
  | .seReg x y => seReg x y
  | .sneReg x y => sneReg x y
  | .ldByte x nn => ldByte x nn
  | .addByte x nn => addByte x nn
  | .ldReg x y => ldReg x y
  | .orReg x y => orReg x y
  | .andReg x y => andReg x y
  | .xorReg x y => xorReg x y
  | .addReg x y => addReg x y
  | .subReg x y => subReg x y
  | .shr x y => shr x y
  | .subnReg x y => subnReg x y
  | .shl x y => shl x y
  | .ldI nnn => ldI nnn
  | .jpV0 nnn => jpV0 nnn
  | .rnd x nn => rnd x nn
  | .drw x y n => drw x y n
  | .skp x => skp x
  | .sknp x => sknp x
  | .ldVxDt x => ldVxDt x
  | .ldDtVx x => ldDtVx x
  | .ldStVx x => ldStVx x
  | .addI x => addI x
  | .ldVxK x => ldVxK x
  | .ldF x => ldF x
  | .ldB x => ldB x
  | .storeRegs x => storeRegs x
  | .loadRegs x => loadRegs x

theorem decode_error_iff_isOk (w : Word) : (∃ e, decode w = .error e) ↔ (decode w).isOk = false := by
  cases decode w <;> simp

/-- Settles O3: a decoded word is the encoding of its instruction (O2), which lies in the row that the
instruction names; the rejected words are those of `decode_rejects_iff`. -/
theorem decoderAgreesWithOpcodeTable : Obligations.DecoderAgreesWithOpcodeTable := by
  intro w
  refine ⟨fun i hi => ?_, (decode_error_iff_isOk w).trans (decode_rejects_iff w)⟩
  obtain ⟨r, hrow, hacc⟩ := matchesRow i
  rw [encode_of_decode hi] at hacc
  exact ⟨r, List.mem_of_getElem? hrow, hrow, beq_iff_eq.1 hacc⟩

/-! ### The illegal words by family -/

section
variable (f : Fields) (e : Reject)

theorem decodeZero_eq_error_iff :
    decodeZero f = .error e ↔ f.nnn ≠ 0x0E0 ∧ f.nnn ≠ 0x0EE ∧ .illegalZero = e := by
  simp [decodeZero, ite_eq_iff]

theorem decodeEight_eq_error_iff : decodeEight f = .error e ↔ f.n ≠ 0x0 ∧ f.n ≠ 0x1 ∧ f.n ≠ 0x2 ∧
    f.n ≠ 0x3 ∧ f.n ≠ 0x4 ∧ f.n ≠ 0x5 ∧ f.n ≠ 0x6 ∧ f.n ≠ 0x7 ∧ f.n ≠ 0xE ∧ .illegalEight = e := by
  simp [decodeEight, ite_eq_iff]

theorem decodeKey_eq_error_iff :
    decodeKey f = .error e ↔ f.nn ≠ 0x9E ∧ f.nn ≠ 0xA1 ∧ .illegalKey = e := by
  simp [decodeKey, ite_eq_iff]

theorem decodeMisc_eq_error_iff : decodeMisc f = .error e ↔ f.nn ≠ 0x07 ∧ f.nn ≠ 0x0A ∧ f.nn ≠ 0x15 ∧
    f.nn ≠ 0x18 ∧ f.nn ≠ 0x1E ∧ f.nn ≠ 0x29 ∧ f.nn ≠ 0x33 ∧ f.nn ≠ 0x55 ∧ f.nn ≠ 0x65 ∧
    .illegalMisc = e := by
  simp [decodeMisc, ite_eq_iff]

/-- R82: only six families have illegal words. -/
theorem dispatch_eq_error_iff : dispatch f = .error e ↔
    f.op = 0x0 ∧ decodeZero f = .error e ∨ f.op = 0x5 ∧ f.n ≠ 0 ∧ .illegalFive = e ∨
    f.op = 0x8 ∧ decodeEight f = .error e ∨ f.op = 0x9 ∧ f.n ≠ 0 ∧ .illegalNine = e ∨
    f.op = 0xE ∧ decodeKey f = .error e ∨ f.op = 0xF ∧ decodeMisc f = .error e := by
  rcases nibble_cases f.op with
    ho | ho | ho | ho | ho | ho | ho | ho | ho | ho | ho | ho | ho | ho | ho | ho <;>
    simp [dispatch, ho, ite_eq_iff]

end

/-- Settles O4: the tests of the six decoders on the fields, read as tests on the numbers of the fields (R74). -/
theorem illegalWordsByFamily : Obligations.IllegalWordsByFamily := by
  intro w
  have hw : w.toNat < 65536 := w.isLt
  simp only [decode, dispatch_eq_error_iff, decodeZero_eq_error_iff, decodeEight_eq_error_iff,
    decodeKey_eq_error_iff, decodeMisc_eq_error_iff, ne_eq, ← BitVec.toNat_inj, BitVec.reduceToNat,
    Fields.toNat_ofWord_op, Fields.toNat_ofWord_n, Fields.toNat_ofWord_nn, Fields.toNat_ofWord_nnn,
    reduceCtorEq, and_false, false_or, or_false, true_and, and_true, not_false_eq_true, List.mem_cons,
    List.not_mem_nil]
  exact ⟨by omega, by omega, by omega, by omega⟩

/-! ### Disjoint patterns -/

/-- Two rows that accept one word agree on the bits that both look at. -/
theorem Row.bits_and_mask_of_accepts_both {r r' : Row} {w : Word} (h : w &&& r.mask = r.bits)
    (h' : w &&& r'.mask = r'.bits) : r.bits &&& r'.mask = r'.bits &&& r.mask := by
  rw [← h, ← h', BitVec.and_assoc, BitVec.and_assoc, BitVec.and_comm r.mask]

/-- R81, on the rows alone: any two of them differ on a bit that both look at. -/
theorem opcodeTable_pairwise :
    opcodeTable.Pairwise fun r r' => r.bits &&& r'.mask ≠ r'.bits &&& r.mask := by
  decide

/-- Settles O5: two rows that both accept a word would agree on the bits that both look at. -/
theorem opcodePatternsAreDisjoint : Obligations.OpcodePatternsAreDisjoint := by
  refine ⟨rfl, fun w i j hi hj hij ⟨hacc, hacc'⟩ => ?_⟩
  have hbits := Row.bits_and_mask_of_accepts_both hacc hacc'
  have hpair := List.pairwise_iff_getElem.1 opcodeTable_pairwise
  rcases Nat.lt_or_gt_of_ne hij with hlt | hgt
  · exact hpair i j hi hj hlt hbits
  · exact hpair j i hj hi hgt hbits.symm

/-! ### The examples of the spec -/

/-- Settles O7: five words decode by evaluation, and the two bytes of a stored word read back (R61). -/
theorem wordsOfTheSpecDecode : Obligations.WordsOfTheSpecDecode :=
  ⟨rfl, rfl, rfl, rfl, rfl, fun s =>
    ⟨s.readByte_writeBytes_same 0x200 [0x60, 0x10] 0 (by decide) (by decide),
      s.readByte_writeBytes_same 0x200 [0x60, 0x10] 1 (by decide) (by decide)⟩⟩

end Sys2Proof
end

section
/-!
PROOFS. Memory accesses and the fetch (spec/20_memory.md R55, R61).
-/

namespace Sys2Proof.Machine

section
variable (s : State) (a : Nat)

/-- R55: the address is reduced at the access. -/
theorem State.readByte_mod : s.readByte (a % 4096) = s.readByte a := by
  have hred : reduce (a % 4096) = reduce a := reduce_reduce a
  rw [State.readByte, hred, State.readByte]

/-- R61: the byte at the lower address is the high half of the word. -/
theorem State.fetch_toNat :
    (s.fetch a).toNat = (s.readByte a).toNat * 256 + (s.readByte (a + 1)).toNat :=
  wordOfBytes_toNat _ _

theorem State.fetch_mod : s.fetch (a % 4096) = s.fetch a := by
  have hnext : s.readByte (a % 4096 + 1) = s.readByte (a + 1) := by
    rw [← s.readByte_mod, Nat.mod_add_mod, s.readByte_mod]
  rw [State.fetch, State.fetch, s.readByte_mod, hnext]

end

end Sys2Proof.Machine

namespace Sys2Proof
open Machine

/-- Settles O8: reads and writes reduce the address themselves (R55). -/
theorem everyAccessIsModulo4096 : Obligations.EveryAccessIsModulo4096 := fun s a c b =>
  ⟨(s.readByte_mod a).symm, s.readByte_writeByte a c b, rfl⟩

/-- Settles O9: the fetched word is its two bytes (R61), each read modulo 4096 (R55). -/
theorem fetchIsHighByteFirst : Obligations.FetchIsHighByteFirst := by
  intro s a
  rw [s.readByte_mod, s.readByte_mod, s.fetch_toNat]

end Sys2Proof
end

section
/-!
PROOFS. What a step can do, said once (spec/60_exceptions.md R158), and the steps that are no cycle in phase
RUN: idle, tick, reset, load and start.
-/

namespace Sys2Proof.Machine

/-! ### The requests, one by one -/

/-- The state once the first request is removed and the strobes are lowered. -/
def State.accepted (s : State) (rest : List Request) : State :=
  { s with requests := rest, frameStrobe := false, toneStrobe := false }

section
variable {s : State}

theorem State.takeTick_of_run (h : s.phase = .run) :
    s.takeTick = { s with dt := countDown s.dt, st := countDown s.st, toneStrobe := s.st != 0 } := by
  rw [State.takeTick, h]

theorem State.takeTick_of_phase_ne_run (h : s.phase ≠ .run) : s.takeTick = s := by
  unfold State.takeTick
  cases hp : s.phase with
  | run => exact absurd hp h
  | load => rfl
  | halted => rfl

theorem State.takeLoad_of_load (h : s.phase = .load) (a : Addr) (b : Byte) :
    s.takeLoad a b = if Config.inProgram a.toNat then s.writeByte a.toNat b else s := by
  rw [State.takeLoad, h]

theorem State.takeLoad_of_phase_ne_load (h : s.phase ≠ .load) (a : Addr) (b : Byte) :
    s.takeLoad a b = s := by
  unfold State.takeLoad
  cases hp : s.phase with
  | load => exact absurd hp h
  | run => rfl
  | halted => rfl

theorem State.takeStart_of_load (h : s.phase = .load) :
    s.takeStart = { s with pc := 0x0200, phase := .run } := by
  rw [State.takeStart, h]

theorem State.takeStart_of_phase_ne_load (h : s.phase ≠ .load) : s.takeStart = s := by
  unfold State.takeStart
  cases hp : s.phase with
  | load => exact absurd hp h
  | run => rfl
  | halted => rfl

end

/-- The loader's region of R167, for an address that has 12 bits. -/
theorem inProgram_iff (a : Addr) : Config.inProgram a.toNat = true ↔ 0x200 ≤ a.toNat := by
  have ha : a.toNat < 4096 := a.isLt
  rw [Config.inProgram, decide_eq_true_iff]
  simp only [Config.progBase, Config.memSize]
  omega

theorem reduce_addr (a : Addr) : reduce a.toNat = a.toNat := Nat.mod_eq_of_lt a.isLt

theorem State.readByte_takeLoad (s : State) (a : Addr) (b : Byte) (c : Nat) :
    (s.takeLoad a b).readByte c =
      if s.phase = .load ∧ 0x200 ≤ a.toNat ∧ c % 4096 = a.toNat then b else s.readByte c := by
  by_cases hphase : s.phase = .load
  · rw [State.takeLoad_of_load hphase]
    by_cases hreg : 0x200 ≤ a.toNat
    · rw [if_pos ((inProgram_iff a).2 hreg), State.readByte_writeByte, reduce_addr]
      exact if_congr (by simp only [hphase, hreg, true_and]; rfl) rfl rfl
    · rw [if_neg (mt (inProgram_iff a).1 hreg), if_neg (by tauto)]
  · rw [State.takeLoad_of_phase_ne_load hphase, if_neg (by tauto)]

/-- A load request changes `mem` alone. -/
theorem State.takeLoad_eq (s : State) (a : Addr) (b : Byte) :
    s.takeLoad a b = { s with mem := (s.takeLoad a b).mem } := by
  by_cases hphase : s.phase = .load
  · rw [State.takeLoad_of_load hphase]
    split <;> rfl
  · rw [State.takeLoad_of_phase_ne_load hphase]

/-! ### What a step can do -/

/-- Everything a step from `s` to `t` can be. -/
inductive StepCase (s t : State) : Prop where
  | idle (hreq : s.requests = []) (ht : t = s.idle)
  | reset (rest : List Request) (hreq : s.requests = .reset :: rest)
      (ht : t = (s.accepted rest).takeReset)
  | load (a : Addr) (b : Byte) (rest : List Request) (hreq : s.requests = .load a b :: rest)
      (ht : t = (s.accepted rest).takeLoad a b)
  | start (rest : List Request) (hreq : s.requests = .start :: rest)
      (ht : t = (s.accepted rest).takeStart)
  | tick (rest : List Request) (hreq : s.requests = .tick :: rest)
      (ht : t = (s.accepted rest).takeTick)
  | cycleIgnored (keys : BitVec 16) (rnd : Byte) (rest : List Request)
      (hreq : s.requests = .cycle keys rnd :: rest) (hphase : s.phase ≠ .run)
      (ht : t = s.accepted rest)
  | illegal (keys : BitVec 16) (rnd : Byte) (rest : List Request) (e : Reject)
      (hrun : s.aboutToRun keys rnd rest) (hdec : decode (s.fetch s.pc.toNat) = .error e)
      (ht : t = takeFault .unknownInstruction (s.fetched keys rnd rest))
  | instr (keys : BitVec 16) (rnd : Byte) (rest : List Request) (i : Instr)
      (hrun : s.aboutToRun keys rnd rest) (hdec : decode (s.fetch s.pc.toNat) = .ok i)
      (hexec : exec i (s.fetched keys rnd rest) = .next t)

section
variable {s t : State} {keys : BitVec 16} {rnd : Byte} {rest : List Request}

theorem step_of_decode_ok {i : Instr} (h : s.aboutToRun keys rnd rest)
    (hdec : decode (s.fetch s.pc.toNat) = .ok i) : step s = exec i (s.fetched keys rnd rest) :=
  (step_of_aboutToRun h).trans
    (State.executeFetched_of_decode_ok (s := s.fetched keys rnd rest) hdec)

theorem step_of_decode_error {e : Reject} (h : s.aboutToRun keys rnd rest)
    (hdec : decode (s.fetch s.pc.toNat) = .error e) :
    step s = .next (takeFault .unknownInstruction (s.fetched keys rnd rest)) :=
  (step_of_aboutToRun h).trans
    (State.executeFetched_of_decode_error (s := s.fetched keys rnd rest) hdec)

theorem step_of_cycle_of_phase_ne_run (hreq : s.requests = .cycle keys rnd :: rest)
    (hphase : s.phase ≠ .run) : step s = .next (s.accepted rest) := by
  rw [step_of_requests_cons hreq]
  exact State.takeCycle_of_phase_ne_run _ _ _ hphase

theorem step_of_tick (hreq : s.requests = .tick :: rest) :
    step s = .next (s.accepted rest).takeTick := by
  rw [step_of_requests_cons hreq]; rfl

theorem step_of_reset (hreq : s.requests = .reset :: rest) :
    step s = .next (s.accepted rest).takeReset := by
  rw [step_of_requests_cons hreq]; rfl

theorem step_of_load {a : Addr} {b : Byte} (hreq : s.requests = .load a b :: rest) :
    step s = .next ((s.accepted rest).takeLoad a b) := by
  rw [step_of_requests_cons hreq]; rfl

theorem step_of_start (hreq : s.requests = .start :: rest) :
    step s = .next (s.accepted rest).takeStart := by
  rw [step_of_requests_cons hreq]; rfl

/-- R158: one request, or none, is taken in a step. -/
theorem step_cases (h : step s = .next t) : StepCase s t := by
  cases hreq : s.requests with
  | nil =>
    rw [step_of_requests_nil hreq] at h
    exact .idle hreq (by cases h; rfl)
  | cons r rest =>
    cases r with
    | reset => rw [step_of_reset hreq] at h; exact .reset rest hreq (by cases h; rfl)
    | load a b => rw [step_of_load hreq] at h; exact .load a b rest hreq (by cases h; rfl)
    | start => rw [step_of_start hreq] at h; exact .start rest hreq (by cases h; rfl)
    | tick => rw [step_of_tick hreq] at h; exact .tick rest hreq (by cases h; rfl)
    | cycle keys rnd =>
      by_cases hphase : s.phase = .run
      · have hrun : s.aboutToRun keys rnd rest := ⟨hphase, hreq⟩
        cases hdec : decode (s.fetch s.pc.toNat) with
        | ok i => exact .instr keys rnd rest i hrun hdec (by rw [← step_of_decode_ok hrun hdec, h])
        | error e =>
          rw [step_of_decode_error hrun hdec] at h
          exact .illegal keys rnd rest e hrun hdec (by cases h; rfl)
      · rw [step_of_cycle_of_phase_ne_run hreq hphase] at h
        exact .cycleIgnored keys rnd rest hreq hphase (by cases h; rfl)

end

/-- R55, R143: no instruction stops the model. -/
theorem exec_next (i : Instr) (s : State) : ∃ t, exec i s = .next t := by
  rcases exec_keepsOrRaises i s with ⟨t, ht, -⟩ | ⟨code, -, ht⟩
  · exact ⟨t, ht⟩
  · exact ⟨_, ht⟩

theorem step_next (s : State) : ∃ t, step s = .next t := by
  cases hreq : s.requests with
  | nil => exact ⟨_, step_of_requests_nil hreq⟩
  | cons r rest =>
    cases r with
    | reset => exact ⟨_, step_of_reset hreq⟩
    | load a b => exact ⟨_, step_of_load hreq⟩
    | start => exact ⟨_, step_of_start hreq⟩
    | tick => exact ⟨_, step_of_tick hreq⟩
    | cycle keys rnd =>
      by_cases hphase : s.phase = .run
      · have hrun : s.aboutToRun keys rnd rest := ⟨hphase, hreq⟩
        cases hdec : decode (s.fetch s.pc.toNat) with
        | ok i => rw [step_of_decode_ok hrun hdec]; exact exec_next i _
        | error e => exact ⟨_, step_of_decode_error hrun hdec⟩
      · exact ⟨_, step_of_cycle_of_phase_ne_run hreq hphase⟩

/-! ### The tick -/

/-- R154: saturating decrement. -/
theorem countDown_toNat (b : Byte) : (countDown b).toNat = b.toNat - 1 := by
  have hb : b.toNat < 256 := b.isLt
  unfold countDown
  split
  · simp only [BitVec.toNat_sub, BitVec.reduceToNat]; omega
  · simp only [BitVec.reduceToNat]; omega

/-- The state after a tick in phase RUN (R154). -/
def State.ticked (s : State) (rest : List Request) : State :=
  { s.accepted rest with dt := countDown s.dt, st := countDown s.st, toneStrobe := s.st != 0 }

theorem step_of_tick_of_run {s : State} {rest : List Request} (hphase : s.phase = .run)
    (hreq : s.requests = .tick :: rest) : step s = .next (s.ticked rest) := by
  rw [step_of_tick hreq, State.takeTick_of_run (s := s.accepted rest) hphase]; rfl

section
variable (s : State) (rest : List Request)

theorem State.ticked_dt_toNat : (s.ticked rest).dt.toNat = s.dt.toNat - 1 := countDown_toNat s.dt

theorem State.ticked_st_toNat : (s.ticked rest).st.toNat = s.st.toNat - 1 := countDown_toNat s.st

/-- R155: the tone is judged on ST before the decrement. -/
theorem State.ticked_toneStrobe : (s.ticked rest).toneStrobe = true ↔ s.st ≠ 0 := bne_iff_ne

end

/-- A run takes its first step and goes on from there. -/
theorem runSteps_succ {s t : State} (h : step s = .next t) (n : Nat) :
    runSteps (n + 1) s = runSteps n t := by
  rw [runSteps, h]

/-! ### Reset -/

/-- Memory at reset is the reset contents (R44, R65). -/
theorem State.readByte_resetWith (p : Params) (a : Nat) :
    (State.resetWith p).readByte a = resetByte p (reduce a) := rfl

theorem State.readByte_resetWith_font (p : Params) (k : Fin 80) :
    (State.resetWith p).readByte (0x050 + k.val) = p.font[k.val] := by
  have hk := k.isLt
  have hred : reduce (0x050 + k.val) = 0x050 + k.val := Nat.mod_eq_of_lt (by simp only [Config.memSize]; omega)
  have hfont : Config.fontBase ≤ 0x050 + k.val ∧ 0x050 + k.val < Config.fontBase + 80 := by
    simp only [Config.fontBase]; omega
  rw [State.readByte_resetWith, hred, resetByte, dif_pos hfont]
  simp [Config.fontBase]

theorem State.readByte_resetWith_of_not_font (p : Params) (a : Nat) (ha : a < 4096)
    (hfont : ¬ (0x050 ≤ a ∧ a ≤ 0x09F)) : (State.resetWith p).readByte a = 0 := by
  have hred : reduce a = a := Nat.mod_eq_of_lt ha
  rw [State.readByte_resetWith, hred, resetByte, dif_neg]
  simp only [Config.fontBase]
  omega

end Sys2Proof.Machine

namespace Sys2Proof
open Machine

/-- Settles O12: in each case of the step there is a next state; with no request it is the idle one (R162). -/
theorem everyStepAnswersANextState : Obligations.EveryStepAnswersANextState := fun s =>
  ⟨step_next s, step_of_requests_nil⟩

/-- Settles O11: the state that decodes and dispatches is the head of the cycle (R91), written out. -/
theorem stepRunsTheDecodedInstruction : Obligations.StepRunsTheDecodedInstruction := by
  intro s keys rnd rest hrun hi lo w s'
  have hbytes : decodeBytes [hi, lo] = (decode (s.fetch s.pc.toNat)).map fun i => (i, []) := rfl
  refine ⟨fun i tail h => ?_, fun e h => ?_⟩
  · cases hdec : decode (s.fetch s.pc.toNat) with
    | ok j =>
      rw [hbytes, hdec] at h
      cases h
      exact step_of_decode_ok hrun hdec
    | error e => rw [hbytes, hdec] at h; cases h
  · cases hdec : decode (s.fetch s.pc.toNat) with
    | ok j => rw [hbytes, hdec] at h; cases h
    | error e => exact step_of_decode_error hrun hdec

/-- Settles O13: neither request reaches its rule outside phase RUN (R98, R163). -/
theorem cyclesAndTicksOutsideRunDoNothing : Obligations.CyclesAndTicksOutsideRunDoNothing := by
  rintro s r rest hphase hreq (rfl | ⟨keys, rnd, rfl⟩)
  · rw [step_of_tick hreq, State.takeTick_of_phase_ne_run (s := s.accepted rest) hphase]; rfl
  · exact step_of_cycle_of_phase_ne_run hreq hphase

/-- Settles O14, by the tick in phase RUN (R154). -/
theorem tickCountsDownBothTimers : Obligations.TickCountsDownBothTimers := fun s rest hphase hreq =>
  ⟨_, step_of_tick_of_run hphase hreq, s.ticked_dt_toNat rest, s.ticked_st_toNat rest,
    s.ticked_toneStrobe rest, fun _ => rfl, fun _ => rfl, rfl⟩

/-- Settles O15, by induction on the number of ticks: the first tick takes one from ST, and the row after it
has one tick less. -/
theorem toneSoundsForStTicks : Obligations.ToneSoundsForStTicks := by
  intro s k rest hphase hreq
  induction k generalizing s with
  | zero =>
    have hreq' : s.requests = .tick :: rest := hreq
    refine ⟨_, runSteps_succ (step_of_tick_of_run hphase hreq') 0, ?_, s.ticked_st_toNat rest,
      s.ticked_dt_toNat rest, rfl, hphase⟩
    rw [s.ticked_toneStrobe rest, ne_eq, ← BitVec.toNat_inj]
    exact Nat.pos_iff_ne_zero.symm
  | succ k ih =>
    have hreq' : s.requests = .tick :: (List.replicate (k + 1) .tick ++ rest) := hreq
    obtain ⟨t, hrun, htone, hst, hdt, hrest, hphase'⟩ := ih (s.ticked _) hphase rfl
    rw [State.ticked_st_toNat] at htone hst
    rw [State.ticked_dt_toNat] at hdt
    exact ⟨t, (runSteps_succ (step_of_tick_of_run hphase hreq') _).trans hrun,
      htone.trans (by omega), by omega, by omega, hrest, hphase'⟩

/-- Settles O16: reset makes the reset state of the same parameters (R166). -/
theorem resetClearsTheCore : Obligations.ResetClearsTheCore := fun s _ hreq =>
  ⟨_, step_of_reset hreq, State.readByte_resetWith_font s.params,
    State.readByte_resetWith_of_not_font s.params, rfl, rfl, rfl, rfl, rfl, Display.pixel_blank,
    fun _ => rfl, rfl, rfl, rfl, rfl, rfl, rfl⟩

/-- Settles O17: the reset state, field by field (R44), and a start from it (R168). -/
theorem stateAfterReset : Obligations.StateAfterReset := fun p =>
  ⟨State.readByte_resetWith_font p, State.readByte_resetWith_of_not_font p, rfl, rfl, rfl, rfl, rfl,
    Display.pixel_blank, fun _ => rfl, rfl, rfl, fun _ => ⟨_, step_of_start rfl, rfl, rfl⟩⟩

/-- Settles O18: the reset memory holds the font parameter (R44), whose 80 bytes are compared. -/
theorem resetTakesTheDefaultParameters : Obligations.ResetTakesTheDefaultParameters := by
  unfold Obligations.ResetTakesTheDefaultParameters
  intro glyphs
  have hfont : ∀ (g : Fin 16) (r : Fin 5),
      State.reset.params.font[5 * g.val + r.val] = glyphs[g.val][r.val] := by decide
  refine ⟨rfl, rfl, by decide, rfl, rfl, rfl, fun g r => ⟨hfont g r, ?_⟩⟩
  rw [← hfont g r, Nat.add_assoc]
  exact State.readByte_resetWith_font Params.default ⟨5 * g.val + r.val, by omega⟩

/-- Settles O19: in phase LOAD a load request writes its one byte when the address is in the loader's region
(R167); otherwise it writes none. -/
theorem loaderWritesOnlyTheProgramRegion : Obligations.LoaderWritesOnlyTheProgramRegion := by
  intro s a b rest hreq
  exact ⟨_, step_of_load hreq, (s.accepted rest).readByte_takeLoad a b,
    (s.accepted rest).takeLoad_eq a b⟩

/-- Settles O21 (R168). -/
theorem startSetsTheEntryPoint : Obligations.StartSetsTheEntryPoint := by
  refine fun s rest hreq => ⟨fun hphase => ?_, fun hphase => ?_⟩
  · rw [step_of_start hreq, State.takeStart_of_load (s := s.accepted rest) hphase]; rfl
  · rw [step_of_start hreq, State.takeStart_of_phase_ne_load (s := s.accepted rest) hphase]; rfl

end Sys2Proof
end

section
/-!
PROOFS. Loading a program image and starting it (spec/70_reset_and_hazards.md R167 to R170): a row of load
requests writes the image's bytes in order.
-/

namespace Sys2Proof.Machine

/-- The load requests of the bytes `bs` from address `a` up: `loadRequests`, with the address as a parameter. -/
def loadRequestsFrom (a : Nat) : List Byte → List Request
  | [] => []
  | b :: bs => .load (BitVec.ofNat 12 a) b :: loadRequestsFrom (a + 1) bs

theorem map_range_load (bs : List Byte) (a : Nat) :
    ((List.range bs.length).map fun j => Request.load (BitVec.ofNat 12 (a + j)) (bs.getD j 0)) =
      loadRequestsFrom a bs := by
  induction bs generalizing a with
  | nil => rfl
  | cons b bs ih =>
    rw [List.length_cons, List.range_succ_eq_map, List.map_cons, List.map_map, loadRequestsFrom,
      ← ih (a + 1)]
    simp [Function.comp_def, Nat.add_assoc, Nat.add_comm 1]

theorem loadRequests_eq (image : List Byte) :
    loadRequests image = loadRequestsFrom Config.progBase image :=
  map_range_load image Config.progBase

/-- R167: one load request in phase LOAD, at an address of the program region. -/
theorem step_of_load_ofNat {s : State} {a : Nat} {b : Byte} {rest : List Request}
    (hphase : s.phase = .load) (ha : 0x200 ≤ a) (ha' : a < 4096)
    (hreq : s.requests = .load (BitVec.ofNat 12 a) b :: rest) :
    step s = .next ((s.accepted rest).writeByte a b) := by
  have haddr : (BitVec.ofNat 12 a).toNat = a := by
    rw [BitVec.toNat_ofNat]; exact Nat.mod_eq_of_lt ha'
  have hin : Config.inProgram (BitVec.ofNat 12 a).toNat = true := (inProgram_iff _).2 (by omega)
  rw [step_of_load hreq, State.takeLoad_of_load (s := s.accepted rest) hphase, if_pos hin, haddr]

/-- The state that loading `bs` at `a` and starting leaves. -/
def State.loaded (s : State) (a : Nat) (bs : List Byte) (rest : List Request) : State :=
  { s.writeBytes a bs with
    pc := 0x0200, phase := .run, requests := rest, frameStrobe := false, toneStrobe := false }

theorem State.loaded_eq (s : State) (a : Nat) (bs : List Byte) (rest : List Request) :
    s.loaded a bs rest = { s with
      mem := (s.loaded a bs rest).mem, pc := 0x0200, phase := .run, requests := rest,
      frameStrobe := false, toneStrobe := false } := by
  rw [State.loaded, State.writeBytes_eq]

/-- Writes do not look at the requests or the strobes. -/
theorem State.writeBytes_accepted (s : State) (a : Nat) (bs : List Byte) (rest : List Request) :
    (s.accepted rest).writeBytes a bs = (s.writeBytes a bs).accepted rest := by
  induction bs generalizing s a with
  | nil => rfl
  | cons b bs ih => exact ih (s.writeByte a b) (a + 1)

theorem State.loaded_accepted (s : State) (a : Nat) (bs : List Byte) (rest rest' : List Request) :
    (s.accepted rest').loaded a bs rest = s.loaded a bs rest := by
  rw [State.loaded, State.writeBytes_accepted]; rfl

/-- By induction on the bytes: each step writes one, and the last one starts. -/
theorem runSteps_load (bs : List Byte) {s : State} {a : Nat} {rest : List Request}
    (hphase : s.phase = .load) (ha : 0x200 ≤ a) (hfit : a + bs.length ≤ 4096)
    (hreq : s.requests = loadRequestsFrom a bs ++ .start :: rest) :
    runSteps (bs.length + 1) s = .next (s.loaded a bs rest) := by
  induction bs generalizing s a with
  | nil =>
    have hreq' : s.requests = .start :: rest := hreq
    rw [List.length_nil, runSteps_succ (step_of_start hreq'),
      State.takeStart_of_load (s := s.accepted rest) hphase]
    rfl
  | cons b bs ih =>
    have hfit' : a + 1 + bs.length ≤ 4096 := by
      rw [List.length_cons] at hfit; omega
    rw [List.length_cons, runSteps_succ (step_of_load_ofNat hphase ha (by omega) hreq),
      ih (by exact hphase) (by omega) hfit' rfl]
    exact congrArg _ (State.loaded_accepted (s.writeByte a b) (a + 1) bs rest _)

end Sys2Proof.Machine

namespace Sys2Proof
open Machine

/-- Settles O20: the bytes of the image are written from 0x200 up (R167), then the core starts (R168). -/
theorem loadedImageStandsInMemory : Obligations.LoadedImageStandsInMemory := by
  intro s image rest hphase hfits hreq
  have hlen : image.length ≤ 3584 := hfits
  rw [loadRequests_eq] at hreq
  refine ⟨_, runSteps_load image hphase (Nat.le_refl _) ?_ hreq, fun j hj => ?_, fun a ha => ?_,
    s.loaded_eq _ image rest⟩
  · exact Nat.add_le_add_left hlen 0x200
  · exact s.readByte_writeBytes_same 0x200 image j hj (by simp only [Config.memSize]; omega)
  · refine s.readByte_writeBytes_other 0x200 image a fun k hk => ?_
    have hred : reduce (0x200 + k) = 0x200 + k :=
      Nat.mod_eq_of_lt (by simp only [Config.memSize]; omega)
    rw [hred]
    exact ha k hk

end Sys2Proof
end

section
/-!
PROOFS. What each instruction answers, one equation per case of its meaning (spec/41_display.md to
spec/45_keys_timers.md). Later proofs go through these and unfold no meaning.
-/

namespace Sys2Proof.Machine

section
variable (s : State) (x y : Reg) (n : Fin 16) (nn : Byte) (nnn : Addr)

/-! ### Display -/

theorem exec_cls : exec .cls s = .next { s with disp := Display.blank }.frameOut := rfl

/-- The display and the collision flag after the sprite of `DRW Vx, Vy, n` (R103). -/
def State.drawn : Canvas :=
  (Canvas.mk s.disp false).drawRows (originColumn (s.getV x)) (originRow (s.getV y)) (s.spriteRows n.val)

/-- The state after `DRW Vx, Vy, n` (R103, R106, R107). -/
def State.afterDraw : State :=
  ({ s with disp := (s.drawn x y n).disp }.setV 15 (flagByte (s.drawn x y n).hit)).frameOut

theorem exec_drw : exec (.drw x y n) s = .next (s.afterDraw x y n) := rfl

theorem State.afterDraw_getV_flag : (s.afterDraw x y n).getV 15 = flagByte (s.drawn x y n).hit :=
  State.getV_setV_same _ 15 _

theorem State.afterDraw_getV_other {k : Reg} (hk : k ≠ 15) : (s.afterDraw x y n).getV k = s.getV k :=
  State.getV_setV_other _ 15 k _ hk

/-! ### Control flow -/

theorem exec_jp : exec (.jp nnn) s = .next { s with pc := addrOperand nnn } := rfl

theorem exec_jpV0 :
    exec (.jpV0 nnn) s = .next { s with pc := addrOperand nnn + widenByte (s.getV 0) } := rfl

theorem exec_ret_of_nil (h : s.stack = []) : exec .ret s = .next (takeFault .stackUnderflow s) := by
  rw [exec, execRet, h]; rfl

theorem exec_ret_of_append {below : List Word} {a : Word} (h : s.stack = below ++ [a]) :
    exec .ret s = .next { s with pc := a, stack := below } := by
  rw [exec, execRet, h, List.getLast?_concat, List.dropLast_concat]

theorem exec_call_of_full (h : s.stack.length = s.params.stackDepth) :
    exec (.call nnn) s = .next (takeFault .stackOverflow s) := if_pos h

theorem exec_call_of_room (h : s.stack.length ≠ s.params.stackDepth) :
    exec (.call nnn) s = .next { s.push s.pc with pc := addrOperand nnn } := if_neg h

/-! ### Registers and ALU -/

theorem exec_ldReg : exec (.ldReg x y) s = .next (s.setV x (s.getV y)) := rfl

theorem exec_orReg : exec (.orReg x y) s = .next (s.setV x (s.getV x ||| s.getV y)) := rfl

theorem exec_andReg : exec (.andReg x y) s = .next (s.setV x (s.getV x &&& s.getV y)) := rfl

theorem exec_xorReg : exec (.xorReg x y) s = .next (s.setV x (s.getV x ^^^ s.getV y)) := rfl

theorem exec_addReg : exec (.addReg x y) s = .next
    (s.setResultThenFlag x (s.getV x + s.getV y) (carryFlag (s.getV x) (s.getV y))) := rfl

theorem exec_subReg : exec (.subReg x y) s = .next
    (s.setResultThenFlag x (s.getV x - s.getV y) (noBorrowFlag (s.getV x) (s.getV y))) := rfl

theorem exec_subnReg : exec (.subnReg x y) s = .next
    (s.setResultThenFlag x (s.getV y - s.getV x) (noBorrowFlag (s.getV y) (s.getV x))) := rfl

theorem exec_shr :
    exec (.shr x y) s = .next (s.shiftInPlace x shiftOutRight fun a => a >>> 1) := rfl

theorem exec_shl :
    exec (.shl x y) s = .next (s.shiftInPlace x shiftOutLeft fun a => a <<< 1) := rfl

theorem exec_rnd : exec (.rnd x nn) s = .next (s.setV x (nn &&& s.cycle.rnd)) := rfl

/-! ### Index register and memory -/

theorem exec_ldI : exec (.ldI nnn) s = .next { s with idx := addrOperand nnn } := rfl

theorem exec_addI : exec (.addI x) s = .next { s with idx := s.idx + widenByte (s.getV x) } := rfl

theorem exec_ldF : exec (.ldF x) s = .next { s with idx := glyphAddr (s.getV x) } := rfl

theorem exec_ldB :
    exec (.ldB x) s = .next (s.storeBytes s.idx.toNat (decimalDigits (s.getV x))) := rfl

theorem exec_storeRegs :
    exec (.storeRegs x) s = .next (s.storeBytes s.idx.toNat (s.regsUpTo x)) := rfl

/-- The loop of FX65 (R135), named so that its frame and its reads can be cited. -/
def State.loadLoop (ks : List Reg) : State :=
  ks.foldl (fun t k => t.setV k (t.readByte (t.idx.toNat + k.val))) s

theorem exec_loadRegs : exec (.loadRegs x) s = .next (s.loadLoop (Reg.upTo x)) := rfl

/-! ### Keys and timers -/

/-- EX9E and EXA1 in one (R136, R137): the skip is taken when `cond` of the key operand holds. -/
def State.keySkip (cond : Bool → Bool) : State :=
  match s.keyOperand x with
  | none => takeFault .keyRange s
  | some held => s.skipIf (cond held)

theorem State.keySkip_of_some (cond : Bool → Bool) {held : Bool} (h : s.keyOperand x = some held) :
    s.keySkip x cond = s.skipIf (cond held) := by
  rw [State.keySkip, h]

theorem State.keySkip_of_none (cond : Bool → Bool) (h : s.keyOperand x = none) :
    s.keySkip x cond = takeFault .keyRange s := by
  rw [State.keySkip, h]

theorem exec_skp : exec (.skp x) s = .next (s.keySkip x id) := by
  rw [exec, execSkp, State.keySkip]
  cases s.keyOperand x <;> rfl

theorem exec_sknp : exec (.sknp x) s = .next (s.keySkip x not) := by
  rw [exec, execSknp, State.keySkip]
  cases s.keyOperand x <;> rfl

theorem exec_ldVxK_of_none (h : s.lowestKey = none) : exec (.ldVxK x) s = .next s.rewind := by
  rw [exec, execLdVxK, h]

theorem exec_ldVxK_of_some {k : Nat} (h : s.lowestKey = some k) :
    exec (.ldVxK x) s = .next (s.setV x (BitVec.ofNat 8 k)) := by
  rw [exec, execLdVxK, h]

theorem exec_ldVxDt : exec (.ldVxDt x) s = .next (s.setV x s.dt) := rfl

theorem exec_ldDtVx : exec (.ldDtVx x) s = .next { s with dt := s.getV x } := rfl

theorem exec_ldStVx : exec (.ldStVx x) s = .next { s with st := s.getV x } := rfl

end

/-! ### The words of the instructions, by format (R76, R80) -/

section
variable {i : Instr} {bits : Word} {op n : BitVec 4} {x y : Reg} {nn : Byte} {nnn : Addr}

theorem EncodedAs.of_packNNN (h : encode i = packNNN op nnn) (hbits : packNNN op 0 = bits) :
    EncodedAs i bits 0xF000 :=
  ⟨by rw [h, packNNN_and, hbits], decode_encode i⟩

theorem EncodedAs.of_packXNN (h : encode i = packXNN op x nn) (hbits : packXNN op 0 0 = bits) :
    EncodedAs i bits 0xF000 :=
  ⟨by rw [h, (packXNN_and op x nn).1, hbits], decode_encode i⟩

theorem EncodedAs.of_packXS (h : encode i = packXNN op x nn) (hbits : packXNN op 0 nn = bits) :
    EncodedAs i bits 0xF0FF :=
  ⟨by rw [h, (packXNN_and op x nn).2, hbits], decode_encode i⟩

theorem EncodedAs.of_packXYN (h : encode i = packXYN op x y n) (hbits : packXYN op 0 0 0 = bits) :
    EncodedAs i bits 0xF000 :=
  ⟨by rw [h, (packXYN_and op x y n).1, hbits], decode_encode i⟩

theorem EncodedAs.of_packXYS (h : encode i = packXYN op x y n) (hbits : packXYN op 0 0 n = bits) :
    EncodedAs i bits 0xF00F :=
  ⟨by rw [h, (packXYN_and op x y n).2, hbits], decode_encode i⟩

end

end Sys2Proof.Machine
end

section
/-!
PROOFS. Control flow (spec/42_flow.md R108 to R110, R115).
-/

namespace Sys2Proof.Machine

theorem addrOperand_toNat (nnn : Addr) : (addrOperand nnn).toNat = nnn.toNat :=
  BitVec.toNat_setWidth_of_le (by decide)

theorem widenByte_toNat (b : Byte) : (widenByte b).toNat = b.toNat :=
  BitVec.toNat_setWidth_of_le (by decide)

end Sys2Proof.Machine

namespace Sys2Proof
open Machine

/-- Settles O40: the stack is empty, which faults, or ends in the address that goes to `pc` (R108). -/
theorem returnPopsTheStack : Obligations.ReturnPopsTheStack :=
  ⟨⟨rfl, decode_encode .ret⟩,
    fun s _ _ h => ⟨_, exec_ret_of_append s h, rfl, rfl, fun _ => rfl, fun _ => rfl, rfl⟩,
    fun s h => ⟨_, exec_ret_of_nil s h, takeFault_halts _ s⟩⟩

/-- Settles O41: NNN is widened with zeros (R109), and BNNN adds V0 (R115). -/
theorem jumpsSetThePc : Obligations.JumpsSetThePc := fun nnn =>
  ⟨.of_packNNN rfl rfl, .of_packNNN rfl rfl, fun s =>
    ⟨⟨_, exec_jp s nnn, addrOperand_toNat nnn, .of_pc s _⟩,
      ⟨_, exec_jpV0 s nnn, by
        rw [BitVec.toNat_add, addrOperand_toNat, widenByte_toNat], .of_pc s _⟩⟩⟩

/-- Settles O42: the one test of R110, for STACK_DEPTH entries, and its two outcomes. -/
theorem callPushesTheReturnAddress : Obligations.CallPushesTheReturnAddress := fun nnn =>
  ⟨.of_packNNN rfl rfl, fun s =>
    ⟨fun h => ⟨_, exec_call_of_room s nnn h, rfl, addrOperand_toNat nnn, fun _ => rfl, fun _ => rfl, rfl⟩,
      fun h => ⟨_, exec_call_of_full s nnn h, takeFault_halts _ s⟩⟩⟩

end Sys2Proof
end

section
/-!
PROOFS. Registers and ALU (spec/43_alu.md R119 to R128).
-/

namespace Sys2Proof.Machine

theorem flagByte_toNat (p : Prop) [Decidable p] :
    (flagByte (decide p)).toNat = if p then 1 else 0 := by
  by_cases hp : p <;> simp [flagByte, hp]

theorem shiftOutRight_toNat (a : Byte) : (shiftOutRight a).toNat = a.toNat % 2 := by
  rw [shiftOutRight, BitVec.toNat_and]
  exact Nat.and_one_is_mod _

theorem shiftOutLeft_toNat (a : Byte) : (shiftOutLeft a).toNat = a.toNat / 128 := by
  have ha : a.toNat < 256 := a.isLt
  rw [shiftOutLeft, BitVec.toNat_and, BitVec.toNat_ushiftRight, Nat.shiftRight_eq_div_pow]
  exact (Nat.and_one_is_mod _).trans (Nat.mod_eq_of_lt (by omega))

theorem ushiftRight_one_toNat (a : Byte) : (a >>> 1).toNat = a.toNat / 2 := by
  rw [BitVec.toNat_ushiftRight, Nat.shiftRight_eq_div_pow]

theorem shiftLeft_one_toNat (a : Byte) : (a <<< 1).toNat = a.toNat * 2 % 256 := by
  rw [BitVec.toNat_shiftLeft, Nat.shiftLeft_eq]

section
variable (s : State) (x : Reg)

/-- The result of 8XY4, 8XY5 and 8XY7 stands in V[X] unless the flag overwrote it. -/
theorem State.getV_setResultThenFlag_result (r f : Byte) (hx : x ≠ 15) :
    (s.setResultThenFlag x r f).getV x = r := by
  rw [State.getV_setResultThenFlag, if_neg hx, if_pos rfl]

theorem State.getV_setResultThenFlag_flag (r f : Byte) : (s.setResultThenFlag x r f).getV 15 = f := by
  rw [State.getV_setResultThenFlag, if_pos rfl]

variable (flag result : Byte → Byte)

theorem State.getV_shiftInPlace_result (hx : x ≠ 15) :
    (s.shiftInPlace x flag result).getV x = result (s.getV x) := by
  rw [State.getV_shiftInPlace _ _ _ _ _ hx, if_neg hx, if_pos rfl]

theorem State.getV_shiftInPlace_flag (hx : x ≠ 15) :
    (s.shiftInPlace x flag result).getV 15 = flag (s.getV x) := by
  rw [State.getV_shiftInPlace _ _ _ _ _ hx, if_pos rfl]

/-- X = F: the order of the two writes decides (R125, R127). -/
theorem State.getV_shiftInPlace_vf :
    (s.shiftInPlace 15 flag result).getV 15 = match s.params.vfShiftOrder with
      | .sequential => result (flag (s.getV 15))
      | .flagLast => flag (s.getV 15)
      | .latched => result (s.getV 15) := by
  unfold State.shiftInPlace
  cases s.params.vfShiftOrder <;> simp only [State.getV_setV_same]

end

end Sys2Proof.Machine

namespace Sys2Proof
open Machine

/-- Settles O46: one register write each (R119 to R122). -/
theorem copyAndLogicOfRegisters : Obligations.CopyAndLogicOfRegisters := fun x y =>
  ⟨.of_packXYS rfl rfl, .of_packXYS rfl rfl, .of_packXYS rfl rfl, .of_packXYS rfl rfl, fun s =>
    ⟨⟨_, exec_ldReg s x y, s.getV_setV_same x _, s.setV_frame x _⟩,
      ⟨_, exec_orReg s x y, s.setV_frame x _, fun b _ => by
        rw [State.getV_setV_same, BitVec.getLsbD_or]⟩,
      ⟨_, exec_andReg s x y, s.setV_frame x _, fun b _ => by
        rw [State.getV_setV_same, BitVec.getLsbD_and]⟩,
      ⟨_, exec_xorReg s x y, s.setV_frame x _, fun b _ => by
        rw [State.getV_setV_same, BitVec.getLsbD_xor]⟩⟩⟩

/-- Settles O47: the wrapped sum, then the carry of the unwrapped one (R123). -/
theorem addSetsTheCarry : Obligations.AddSetsTheCarry := fun x y =>
  ⟨.of_packXYS rfl rfl, fun s => ⟨_, exec_addReg s x y, s.setResultThenFlag_frame x _ _,
    fun hx => by rw [s.getV_setResultThenFlag_result x _ _ hx, BitVec.toNat_add],
    by rw [s.getV_setResultThenFlag_flag]; exact flagByte_toNat _⟩⟩

/-- Settles O48: the wrapped difference, then not borrow (R124, R126). -/
theorem subtractionsSetNotBorrow : Obligations.SubtractionsSetNotBorrow := by
  refine fun x y => ⟨.of_packXYS rfl rfl, .of_packXYS rfl rfl, fun s =>
    ⟨⟨_, exec_subReg s x y, s.setResultThenFlag_frame x _ _, fun hx => ?_, ?_⟩,
      ⟨_, exec_subnReg s x y, s.setResultThenFlag_frame x _ _, fun hx => ?_, ?_⟩⟩⟩
  · rw [s.getV_setResultThenFlag_result x _ _ hx, BitVec.toNat_sub]
    congr 1; omega
  · rw [s.getV_setResultThenFlag_flag]; exact flagByte_toNat _
  · rw [s.getV_setResultThenFlag_result x _ _ hx, BitVec.toNat_sub]
    congr 1; omega
  · rw [s.getV_setResultThenFlag_flag]; exact flagByte_toNat _

/-- Settles O49: with X ≠ F both writes stand; with X = F the last one does, in the order of VF_SHIFT_ORDER
(R125, R127). -/
theorem shiftsByOneBit : Obligations.ShiftsByOneBit := by
  refine fun x y => ⟨.of_packXYS rfl rfl, .of_packXYS rfl rfl, fun s => ⟨fun _ => ⟨rfl, rfl⟩,
    ⟨_, exec_shr s x y, s.shiftInPlace_frame x _ _, fun hx => ⟨?_, ?_⟩, ?_⟩,
    ⟨_, exec_shl s x y, s.shiftInPlace_frame x _ _, fun hx => ⟨?_, ?_⟩, ?_⟩⟩⟩
  · rw [s.getV_shiftInPlace_result x _ _ hx, ushiftRight_one_toNat]
  · rw [s.getV_shiftInPlace_flag x _ _ hx, shiftOutRight_toNat]
  · rintro rfl
    rw [s.getV_shiftInPlace_vf]
    cases s.params.vfShiftOrder with
    | sequential => rw [ushiftRight_one_toNat, shiftOutRight_toNat]; dsimp only; omega
    | flagLast => exact shiftOutRight_toNat _
    | latched => exact ushiftRight_one_toNat _
  · rw [s.getV_shiftInPlace_result x _ _ hx, shiftLeft_one_toNat]
  · rw [s.getV_shiftInPlace_flag x _ _ hx, shiftOutLeft_toNat]
  · rintro rfl
    rw [s.getV_shiftInPlace_vf]
    have ha : (s.getV 15).toNat < 256 := (s.getV 15).isLt
    cases s.params.vfShiftOrder with
    | sequential =>
      rw [shiftLeft_one_toNat, shiftOutLeft_toNat]
      dsimp only
      split <;> omega
    | flagLast => exact shiftOutLeft_toNat _
    | latched => exact shiftLeft_one_toNat _

/-- Settles O50: the random byte is the one of the cycle (R128). -/
theorem randomByteUnderMask : Obligations.RandomByteUnderMask := fun x nn =>
  ⟨.of_packXNN rfl rfl, fun s r hr => ⟨_, exec_rnd s x nn, s.setV_frame x _, fun b _ => by
    rw [State.getV_setV_same, BitVec.getLsbD_and, hr]⟩⟩

end Sys2Proof
end

section
/-!
PROOFS. Index register and memory (spec/44_index_memory.md R130 to R135).
-/

namespace Sys2Proof.Machine

theorem glyphAddr_toNat (b : Byte) : (glyphAddr b).toNat = 0x050 + 5 * b.toNat := by
  have hb : b.toNat < 256 := b.isLt
  rw [glyphAddr, BitVec.toNat_ofNat]
  simp only [Config.fontBase, Config.glyphBytes]
  omega

theorem ofNat_eight_toNat {n : Nat} (h : n < 256) : (BitVec.ofNat 8 n).toNat = n := by
  rw [BitVec.toNat_ofNat]; exact Nat.mod_eq_of_lt h

section
variable (s : State) (x : Reg)

theorem State.regsUpTo_length : (s.regsUpTo x).length = x.val + 1 := by
  rw [State.regsUpTo, List.length_map, Reg.length_upTo]

theorem State.regsUpTo_getElem (k : Reg) (hk : k.val < (s.regsUpTo x).length) :
    (s.regsUpTo x)[k.val] = s.getV k := by
  simp only [State.regsUpTo, List.getElem_map]
  exact congrArg s.getV (Fin.ext (Reg.getElem_upTo x _ _))

/-- FX33 and FX55 in one: a store whose bytes number `n` faults or writes them (R58, R60). -/
theorem State.storeBytes_of_not_storeFaults {a n : Nat} {bs : List Byte} (hn : bs.length = n)
    (h : ¬ s.storeFaults a n) : s.storeBytes a bs = s.writeBytes a bs :=
  (s.storeBytes_spec a bs).1 (by rwa [hn])

theorem State.storeBytes_of_storeFaults {a n : Nat} {bs : List Byte} (hn : bs.length = n)
    (h : s.storeFaults a n) : s.storeBytes a bs = takeFault .fontWrite s :=
  (s.storeBytes_spec a bs).2 (by rwa [hn])

theorem exec_storeRegs_of_not_storeFaults (h : ¬ s.storeFaults s.idx.toNat (x.val + 1)) :
    exec (.storeRegs x) s = .next (s.writeBytes s.idx.toNat (s.regsUpTo x)) := by
  rw [exec_storeRegs, s.storeBytes_of_not_storeFaults (s.regsUpTo_length x) h]

/-- The byte of V[k] after FX55 (R134). -/
theorem State.readByte_writeBytes_regsUpTo (a : Nat) {k : Reg} (hk : k ≤ x) :
    (s.writeBytes a (s.regsUpTo x)).readByte (a + k.val) = s.getV k := by
  have hlen := s.regsUpTo_length x
  have hk' : k.val ≤ x.val := hk
  have hx := x.isLt
  rw [s.readByte_writeBytes_same a _ k.val (by omega) (by rw [hlen, Config.memSize]; omega),
    s.regsUpTo_getElem]

theorem State.getV_loadLoop_upTo {k : Reg} (hk : k ≤ x) :
    (s.loadLoop (Reg.upTo x)).getV k = s.readByte (s.idx.toNat + k.val) := by
  rw [State.loadLoop, State.getV_loadLoop, if_pos ((Reg.mem_upTo x k).2 hk)]

end

end Sys2Proof.Machine

namespace Sys2Proof
open Machine

/-- Settles O51: I is NNN (R130), the wrapped sum (R131), or the unmasked glyph address (R132). -/
theorem indexRegisterLoads : Obligations.IndexRegisterLoads := fun x nnn =>
  ⟨.of_packNNN rfl rfl, .of_packXS rfl rfl, .of_packXS rfl rfl, fun s =>
    ⟨⟨_, exec_ldI s nnn, addrOperand_toNat nnn, .of_idx s _⟩,
      ⟨_, exec_addI s x, by rw [BitVec.toNat_add, widenByte_toNat], .of_idx s _⟩,
      ⟨_, exec_ldF s x, glyphAddr_toNat _, .of_idx s _⟩⟩⟩

/-- Settles O52: a store of three bytes, each a digit below 256 (R133). -/
theorem storesDecimalDigits : Obligations.StoresDecimalDigits := by
  refine fun x => ⟨.of_packXS rfl rfl, fun s => ⟨fun h => ?_, fun h => ?_⟩⟩
  · have hv : (s.getV x).toNat < 256 := (s.getV x).isLt
    have hread := fun k (hk : k < 3) =>
      s.readByte_writeBytes_same s.idx.toNat (decimalDigits (s.getV x)) k hk (show 3 ≤ 4096 by decide)
    refine ⟨_, (exec_ldB s x).trans (congrArg _ (s.storeBytes_of_not_storeFaults rfl h)),
      s.writeBytes_frame _ _, ?_, ?_, ?_⟩
    · exact (congrArg _ (hread 0 (by decide))).trans (ofNat_eight_toNat (by omega))
    · exact (congrArg _ (hread 1 (by decide))).trans (ofNat_eight_toNat (by omega))
    · exact (congrArg _ (hread 2 (by decide))).trans (ofNat_eight_toNat (by omega))
  · exact ⟨_, (exec_ldB s x).trans (congrArg _ (s.storeBytes_of_storeFaults rfl h)),
      takeFault_halts _ s⟩

/-- Settles O53: a store of X + 1 bytes, byte k being V[k] (R134). -/
theorem storesRegistersFromIndex : Obligations.StoresRegistersFromIndex := by
  refine fun x => ⟨.of_packXS rfl rfl, fun s => ⟨fun h => ?_, fun h => ?_⟩⟩
  · have hframe := s.writeBytes_frame s.idx.toNat (s.regsUpTo x)
    rw [s.regsUpTo_length] at hframe
    exact ⟨_, exec_storeRegs_of_not_storeFaults s x h, hframe,
      fun k hk => s.readByte_writeBytes_regsUpTo x _ hk⟩
  · exact ⟨_, (exec_storeRegs s x).trans
      (congrArg _ (s.storeBytes_of_storeFaults (s.regsUpTo_length x) h)), takeFault_halts _ s⟩

/-- Settles O10: the two bytes that the fetch joins are V[k] and V[k + 1] (R61, R69). -/
theorem storedWordIsFetched : Obligations.StoredWordIsFetched := by
  intro s x k hk h
  refine ⟨_, exec_storeRegs_of_not_storeFaults s x h, ?_⟩
  have hhi := s.readByte_writeBytes_regsUpTo x s.idx.toNat (k := ⟨k, by omega⟩) (Nat.le_of_lt hk)
  have hlo := s.readByte_writeBytes_regsUpTo x s.idx.toNat (k := ⟨k + 1, by omega⟩) hk
  rw [State.fetch_toNat, hhi, Nat.add_assoc, hlo]

/-- Settles O54: the loop writes V[0] to V[X], each with its byte (R135). -/
theorem loadsRegistersFromIndex : Obligations.LoadsRegistersFromIndex := fun x =>
  ⟨.of_packXS rfl rfl, fun s => ⟨_, exec_loadRegs s x, fun _ hk => s.getV_loadLoop_upTo x hk,
    s.loadLoop_frame (Reg.upTo x)⟩⟩

end Sys2Proof
end

section
/-!
PROOFS. Keys and timers (spec/45_keys_timers.md R136 to R141).
-/

namespace Sys2Proof.Machine

/-- The key operand when EX9E and EXA1 do not fault: a number above 0x0F names no held key (R136). -/
theorem State.keyOperand_eq_some (s : State) (x : Reg)
    (h : (s.getV x).toNat ≤ 15 ∨ s.params.keyRange = .notHeld) :
    s.keyOperand x =
      some (decide ((s.getV x).toNat ≤ 15) && s.cycle.keys.getLsbD (s.getV x).toNat) := by
  rcases s.keyOperand_cases x with ⟨hk, ho⟩ | ⟨hk, hp, -⟩ | ⟨hk, -, ho⟩
  · rw [ho, decide_eq_true hk, Bool.true_and, State.keyHeld]
  · rcases h with h | h
    · exact absurd h (Nat.not_le.2 hk)
    · rw [hp] at h; cases h
  · rw [ho, decide_eq_false (Nat.not_le.2 hk), Bool.false_and]

theorem State.keyOperand_eq_none (s : State) (x : Reg) (hk : 15 < (s.getV x).toNat)
    (hp : s.params.keyRange = .fault) : s.keyOperand x = none := by
  rcases s.keyOperand_cases x with ⟨hk', -⟩ | ⟨-, -, ho⟩ | ⟨-, hp', -⟩
  · exact absurd hk' (Nat.not_le.2 hk)
  · exact ho
  · rw [hp] at hp'; cases hp'

theorem State.lowestKey_eq_none (s : State) (h : s.noKeyHeld) : s.lowestKey = none := by
  rcases s.lowestKey_cases with ⟨hnone, -⟩ | ⟨k, hk, -, hheld, -⟩
  · exact hnone
  · exact absurd (h k hk) (Bool.not_eq_false _ ▸ hheld)

theorem State.lowestKey_eq_some (s : State) {k : Nat} (hk : k < 16)
    (hheld : s.cycle.keys.getLsbD k = true) (hleast : ∀ j < k, s.cycle.keys.getLsbD j = false) :
    s.lowestKey = some k :=
  List.find?_range_eq_some.2 ⟨hheld, List.mem_range.2 hk, fun j hj => by
    rw [State.keyHeld, hleast j hj]; rfl⟩

end Sys2Proof.Machine

namespace Sys2Proof
open Machine

/-- Settles O55: the key operand is there, and the skip depends on it, or it is not, which faults (R136, R137). -/
theorem keySkipsReadTheSnapshot : Obligations.KeySkipsReadTheSnapshot := by
  refine fun x => ⟨.of_packXS rfl rfl, .of_packXS rfl rfl, fun s => ⟨fun h => ?_, fun hk hp => ?_⟩⟩
  · have ho := s.keyOperand_eq_some x h
    rw [exec_skp, exec_sknp, s.keySkip_of_some x id ho, s.keySkip_of_some x not ho]
    refine ⟨⟨_, rfl, s.skipIf_frame _, ?_⟩, ⟨_, rfl, s.skipIf_frame _, ?_⟩⟩
    · simp only [State.skipIf_pc_toNat, id_eq, Bool.and_eq_true, decide_eq_true_eq]
    · simp only [State.skipIf_pc_toNat, Bool.not_eq_true', ← Bool.not_eq_true, Bool.and_eq_true,
        decide_eq_true_eq, ite_not]
  · have ho := s.keyOperand_eq_none x hk hp
    rw [exec_skp, exec_sknp, s.keySkip_of_none x id ho, s.keySkip_of_none x not ho]
    exact ⟨⟨_, rfl, takeFault_halts _ s⟩, ⟨_, rfl, takeFault_halts _ s⟩⟩

/-- Settles O56: the search for the least held key finds none, or that one (R138). -/
theorem keyWaitTakesTheLowestKey : Obligations.KeyWaitTakesTheLowestKey := fun x =>
  ⟨.of_packXS rfl rfl, fun s =>
    ⟨fun h => ⟨_, exec_ldVxK_of_none s x (s.lowestKey_eq_none h), s.rewind_frame, s.rewind_pc_toNat⟩,
      fun k hk hheld hleast =>
        ⟨_, exec_ldVxK_of_some s x (s.lowestKey_eq_some hk hheld hleast),
          by rw [State.getV_setV_same, ofNat_eight_toNat (by omega)], s.setV_frame x _⟩⟩⟩

/-- Settles O57 (R139 to R141). -/
theorem timerMoves : Obligations.TimerMoves := fun x =>
  ⟨.of_packXS rfl rfl, .of_packXS rfl rfl, .of_packXS rfl rfl, fun s =>
    ⟨⟨_, exec_ldVxDt s x, s.getV_setV_same x _, s.setV_frame x _⟩,
      ⟨_, exec_ldDtVx s x, rfl, fun _ => rfl, fun _ => rfl, rfl⟩,
      ⟨_, exec_ldStVx s x, rfl, fun _ => rfl, fun _ => rfl, rfl⟩⟩⟩

end Sys2Proof
end

section
/-!
PROOFS. The display (spec/41_display.md R102 to R107, spec/10_state.md R49): the instructions that draw, and the
display output.
-/

namespace Sys2Proof.Machine

theorem flagByte_eq_one_iff (b : Bool) : flagByte b = 1 ↔ b = true := by
  cases b <;> simp [flagByte]

theorem flagByte_eq (b : Bool) : flagByte b = 0 ∨ flagByte b = 1 := by
  cases b
  · exact .inl rfl
  · exact .inr rfl

section
variable (s : State) (x y : Reg) (n : Fin 16)

/-- The sprite bits of the statements are those that the drawing loop tests (R103). -/
theorem State.rowsBit_spriteRows (px py : Nat) :
    rowsBit (s.spriteRows n.val) (originColumn (s.getV x)) (originRow (s.getV y)) px py =
      s.spriteBit x y n.val px py := by
  simp only [rowsBit, State.spriteBit, State.spriteRows, List.length_map, List.length_range,
    originColumn, originRow]
  by_cases h : (s.getV x).toNat % 64 ≤ px ∧ px < (s.getV x).toNat % 64 + 8 ∧
      (s.getV y).toNat % 32 ≤ py ∧ py < (s.getV y).toNat % 32 + n.val
  · have hrow : py - (s.getV y).toNat % 32 < n.val := by omega
    rw [List.getD_eq_getElem _ _ (by simpa using hrow), List.getElem_map, List.getElem_range]
  · simp only [h, decide_false, Bool.false_and]

/-- R103, R105: on the screen a draw is the XOR of the sprite. -/
theorem State.afterDraw_pixel {px py : Nat} (hx : px < 64) (hy : py < 32) :
    (s.afterDraw x y n).disp.pixel px py = (s.disp.pixel px py ^^ s.spriteBit x y n.val px py) := by
  have hpixel : (s.drawn x y n).disp.pixel px py = _ := (Canvas.drawRows_spec _ _ _ _).1 px py
  rw [State.afterDraw, State.frameOut_disp, State.setV_disp, hpixel, s.rowsBit_spriteRows,
    decide_eq_true (show onScreen px py from ⟨hx, hy⟩), Bool.true_and]

/-- R106: the flag of a draw. -/
theorem State.afterDraw_flag_iff :
    (s.afterDraw x y n).getV 15 = 1 ↔ s.spriteTouches x y n.val true := by
  rw [s.afterDraw_getV_flag, flagByte_eq_one_iff, State.drawn, (Canvas.drawRows_spec _ _ _ _).2]
  simp only [s.rowsBit_spriteRows, Bool.false_eq_true, false_or]
  constructor
  · rintro ⟨px, py, hbit, hlit⟩
    have hon : onScreen px py := by
      by_contra hoff
      rw [Display.pixel_off _ _ _ hoff] at hlit
      cases hlit
    exact ⟨px, py, hon.1, hon.2, hbit, hlit⟩
  · rintro ⟨px, py, -, -, hbit, hlit⟩
    exact ⟨px, py, hbit, hlit⟩

end

/-- A draw moves the sprite only through VF. -/
theorem State.spriteBit_afterDraw (s : State) {x y : Reg} {n : Fin 16}
    (hx : ((s.afterDraw x y n).getV x).toNat % 64 = (s.getV x).toNat % 64)
    (hy : ((s.afterDraw x y n).getV y).toNat % 32 = (s.getV y).toNat % 32) (px py : Nat) :
    (s.afterDraw x y n).spriteBit x y n.val px py = s.spriteBit x y n.val px py := by
  simp only [State.spriteBit, hx, hy]
  rfl

/-- Two draws: where the sprite has a 1 bit, the second finds the opposite of what the first found (R106). -/
theorem State.spriteTouches_iff_of_xor {s t : State} {x y : Reg} {n : Nat}
    (hbit : ∀ px py, t.spriteBit x y n px py = s.spriteBit x y n px py)
    (hdisp : ∀ px py, px < 64 → py < 32 →
      t.disp.pixel px py = (s.disp.pixel px py ^^ s.spriteBit x y n px py)) :
    t.spriteTouches x y n true ↔ s.spriteTouches x y n false := by
  constructor
  all_goals
    rintro ⟨px, py, hx, hy, hb, hlit⟩
    refine ⟨px, py, hx, hy, ?_, ?_⟩
  · rwa [← hbit]
  · rw [hbit] at hb
    rw [hdisp px py hx hy, hb, Bool.xor_true] at hlit
    simpa using hlit
  · rwa [hbit]
  · rw [hdisp px py hx hy, hb, hlit]; rfl

/-! ### The display output -/

/-- The number with bit `k` set exactly when `k < n` and `p k`: the fold of `State.dispOut`. -/
def bitsBelow (p : Nat → Bool) (n : Nat) : Nat :=
  (List.range n).foldl (fun m k => if p k then m + 2 ^ k else m) 0

theorem bitsBelow_succ (p : Nat → Bool) (n : Nat) :
    bitsBelow p (n + 1) = 2 ^ n * (p n).toNat + bitsBelow p n := by
  simp only [bitsBelow, List.range_succ, List.foldl_append, List.foldl_cons, List.foldl_nil]
  cases p n <;> simp [Nat.add_comm]

theorem bitsBelow_lt (p : Nat → Bool) (n : Nat) : bitsBelow p n < 2 ^ n := by
  induction n with
  | zero => exact Nat.one_pos
  | succ n ih =>
    rw [bitsBelow_succ, Nat.pow_succ]
    cases p n <;> simp only [Bool.toNat_true, Bool.toNat_false] <;> omega

theorem testBit_bitsBelow (p : Nat → Bool) (n k : Nat) :
    (bitsBelow p n).testBit k = (decide (k < n) && p k) := by
  induction n with
  | zero => simp [bitsBelow]
  | succ n ih =>
    rw [bitsBelow_succ, Nat.testBit_two_pow_mul_add _ (bitsBelow_lt p n), ih]
    rcases Nat.lt_trichotomy k n with hk | rfl | hk
    · simp [hk, Nat.lt_succ_of_lt hk]
    · cases p k <;> simp
    · have hone : (p n).toNat < 2 ^ (k - n) :=
        Nat.lt_of_le_of_lt (Bool.toNat_le _) (Nat.one_lt_two_pow (by omega))
      rw [if_neg (by omega), Nat.testBit_lt_two_pow hone, decide_eq_false (by omega), Bool.false_and]

theorem State.dispOut_eq (s : State) : s.dispOut =
    BitVec.ofNat 2048 (bitsBelow (fun k => s.disp.pixel (k % 64) (k / 64)) 2048) := rfl

end Sys2Proof.Machine

namespace Sys2Proof
open Machine

/-- Settles O37: CLS puts the blank display (R102). -/
theorem clearDisplayBlanksEveryPixel : Obligations.ClearDisplayBlanksEveryPixel :=
  ⟨⟨rfl, decode_encode .cls⟩, fun s => ⟨_, exec_cls s, fun px py _ _ => Display.pixel_blank px py, rfl,
    fun _ => rfl, fun _ => rfl, rfl⟩⟩

/-- Settles O38: the drawn display pixel by pixel and the flag (R103 to R106); with N = 0 there is no row. -/
theorem drawXorsTheSprite : Obligations.DrawXorsTheSprite := by
  refine fun x y n => ⟨.of_packXYN rfl rfl, fun s => ⟨_, exec_drw s x y n,
    fun _ _ => s.afterDraw_pixel x y n, ?_, s.afterDraw_flag_iff x y n, ?_,
    fun _ => s.afterDraw_getV_other x y n, rfl, fun _ => rfl, rfl⟩⟩
  · rw [s.afterDraw_getV_flag]
    exact flagByte_eq _
  · rintro rfl
    exact ⟨rfl, s.afterDraw_getV_flag x y 0⟩

/-- Settles O39: the second draw has the same sprite at the same origin, on the display that the first one
XORed (R106). -/
theorem drawTwiceRestoresTheDisplay : Obligations.DrawTwiceRestoresTheDisplay := by
  intro x y n s t ht hx hy
  cases (exec_drw s x y n).symm.trans ht
  have hbit := s.spriteBit_afterDraw hx hy
  refine ⟨_, exec_drw _ x y n, fun px py => ?_, s.afterDraw_flag_iff x y n, ?_⟩
  · by_cases hon : onScreen px py
    · rw [State.afterDraw_pixel _ x y n hon.1 hon.2, hbit, State.afterDraw_pixel _ x y n hon.1 hon.2,
        Bool.xor_assoc, Bool.xor_self, Bool.xor_false]
    · rw [Display.pixel_off _ _ _ hon, Display.pixel_off _ _ _ hon]
  · exact (State.afterDraw_flag_iff _ x y n).trans
      (State.spriteTouches_iff_of_xor hbit fun _ _ => s.afterDraw_pixel x y n)

/-- Settles O23: bit 64·y + x of the output is the pixel that the fold tests there (R49). -/
theorem displayOutputShowsEveryPixel : Obligations.DisplayOutputShowsEveryPixel := by
  intro s x y hx hy
  have hcol : (64 * y + x) % 64 = x := by omega
  have hrow : (64 * y + x) / 64 = y := by omega
  have hlt : 64 * y + x < 2048 := by omega
  rw [s.dispOut_eq, BitVec.getLsbD_ofNat, testBit_bitsBelow, hcol, hrow]
  simp [hlt]

end Sys2Proof
end

section
/-!
PROOFS. What an instruction can change (spec/10_state.md R20 to R35, spec/60_exceptions.md R149): said once for
each instruction, then element by element.
-/

namespace Sys2Proof

/-- The state elements that `i` can change when it raises no fault, one line per group of instructions. -/
def Instr.Frame (i : Instr) (s t : Machine.State) : Prop :=
  match i with
  | .cls => ∃ d, t = { s with disp := d, frameStrobe := true }
  | .drw _ _ _ => ∃ d v, t = { s with disp := d, v := v, frameStrobe := true }
  | .ret | .call _ => ∃ p l, t = { s with pc := p, stack := l }
  | .jp _ | .jpV0 _ | .seByte _ _ | .sneByte _ _ | .seReg _ _ | .sneReg _ _ | .skp _ | .sknp _ =>
    ∃ p, t = { s with pc := p }
  | .ldVxK _ => ∃ p v, t = { s with pc := p, v := v }
  | .ldByte _ _ | .addByte _ _ | .ldReg _ _ | .orReg _ _ | .andReg _ _ | .xorReg _ _ | .addReg _ _
  | .subReg _ _ | .shr _ _ | .subnReg _ _ | .shl _ _ | .rnd _ _ | .ldVxDt _ | .loadRegs _ =>
    ∃ v, t = { s with v := v }
  | .ldI _ | .addI _ | .ldF _ => ∃ a, t = { s with idx := a }
  | .ldB _ | .storeRegs _ => ∃ m, t = { s with mem := m }
  | .ldDtVx _ => ∃ b, t = { s with dt := b }
  | .ldStVx _ => ∃ b, t = { s with st := b }

namespace Machine

section
variable {s t : State}

/-- A program store that raises no fault changes `mem` alone; one that does is `takeFault`. -/
theorem State.storeBytes_frame (s : State) (a : Nat) (bs : List Byte) :
    (∃ m, s.storeBytes a bs = { s with mem := m }) ∨ s.storeBytes a bs = takeFault .fontWrite s := by
  rcases s.storeBytes_cases a bs with ⟨-, -, hfault⟩ | ⟨-, hwrite⟩
  · exact .inr hfault
  · exact .inl ⟨_, hwrite.trans (s.writeBytes_eq a bs)⟩

/-- R136, R137: EX9E and EXA1 move `pc` or take KEY_RANGE. -/
theorem State.keySkip_frame (s : State) (x : Reg) (cond : Bool → Bool) :
    (∃ p, s.keySkip x cond = { s with pc := p }) ∨ s.keySkip x cond = takeFault .keyRange s := by
  cases ho : s.keyOperand x with
  | none => exact .inr (s.keySkip_of_none x cond ho)
  | some held => exact .inl ⟨_, (s.keySkip_of_some x cond ho).trans (s.skipIf_frame _).rest⟩

/-- R143, R149: an instruction stays in its frame, or takes its one fault. -/
theorem exec_frame {i : Instr} (h : exec i s = .next t) :
    i.Frame s t ∨ ∃ c, i.faultKind = some c ∧ t = takeFault c s := by
  cases i with
  | cls | jp | jpV0 | ldByte | addByte | ldReg | orReg | andReg | xorReg | addReg | subReg | subnReg
  | rnd | ldVxDt | ldI | addI | ldF | ldDtVx | ldStVx => cases h; exact .inl ⟨_, rfl⟩
  | drw => cases h; exact .inl ⟨_, _, rfl⟩
  | seByte | sneByte | seReg | sneReg => cases h; exact .inl ⟨_, (s.skipIf_frame _).rest⟩
  | shr | shl => cases h; exact .inl ⟨_, s.shiftInPlace_eq _ _ _⟩
  | loadRegs x => cases h; exact .inl ⟨_, s.loadLoop_eq _⟩
  | ldB x =>
    cases h
    exact (s.storeBytes_frame _ _).imp_right fun hf => ⟨_, rfl, hf⟩
  | storeRegs x =>
    cases h
    exact (s.storeBytes_frame _ _).imp_right fun hf => ⟨_, rfl, hf⟩
  | ret =>
    rcases s.stack.eq_nil_or_concat' with hs | ⟨below, a, hs⟩
    · cases (exec_ret_of_nil s hs).symm.trans h
      exact .inr ⟨_, rfl, rfl⟩
    · cases (exec_ret_of_append s hs).symm.trans h
      exact .inl ⟨_, _, rfl⟩
  | call nnn =>
    by_cases hs : s.stack.length = s.params.stackDepth
    · cases (exec_call_of_full s nnn hs).symm.trans h
      exact .inr ⟨_, rfl, rfl⟩
    · cases (exec_call_of_room s nnn hs).symm.trans h
      exact .inl ⟨_, _, rfl⟩
  | skp x =>
    cases (exec_skp s x).symm.trans h
    exact (s.keySkip_frame x id).imp_right fun hf => ⟨_, rfl, hf⟩
  | sknp x =>
    cases (exec_sknp s x).symm.trans h
    exact (s.keySkip_frame x not).imp_right fun hf => ⟨_, rfl, hf⟩
  | ldVxK x =>
    cases hk : s.lowestKey with
    | none =>
      cases (exec_ldVxK_of_none s x hk).symm.trans h
      exact .inl ⟨_, _, rfl⟩
    | some k =>
      cases (exec_ldVxK_of_some s x hk).symm.trans h
      exact .inl ⟨_, _, rfl⟩

end

end Machine
end Sys2Proof
end

section
/-!
PROOFS. The registers an instruction reads and writes (spec/10_state.md R22, R23): a run with other values in
the registers that the instruction does not read answers the same, with the written registers put over them.
-/

namespace Sys2Proof.Machine

/-- `s` with the register vector `v`. -/
def State.withRegs (s : State) (v : Vector Byte 16) : State := { s with v := v }

/-- `v` with the registers `ks` replaced by `g`. -/
def overwrite (v : Vector Byte 16) (ks : List Reg) (g : Reg → Byte) : Vector Byte 16 :=
  Vector.ofFn fun k => if k ∈ ks then g k else v[k.val]

section
variable (s : State) (v : Vector Byte 16) (ks : List Reg) (g : Reg → Byte) (k : Reg)

theorem State.getV_withRegs : (s.withRegs v).getV k = v[k.val] := rfl

theorem State.withRegs_self : s.withRegs s.v = s := rfl

theorem State.getV_withRegs_overwrite :
    (s.withRegs (overwrite v ks g)).getV k = if k ∈ ks then g k else v[k.val] := by
  rw [State.getV_withRegs, overwrite, Vector.getElem_ofFn]

theorem overwrite_nil : overwrite v [] g = v := by
  ext k hk
  simp [overwrite]

end

/-- Two states that differ in the registers alone are equal when the registers are. -/
theorem State.eq_withRegs {s t : State} {v : Vector Byte 16} (h : t = { s with v := t.v })
    (hv : ∀ k, t.getV k = v[k.val]) : t = s.withRegs v := by
  have : t.v = v := Vector.ext fun k hk => hv ⟨k, hk⟩
  rw [h, this, State.withRegs]

/-- A register operation, run on other register values, writes the same values over them. -/
theorem ChangesOnlyRegs.eq_withRegs_overwrite {s t t' : State} {v : Vector Byte 16} {ks : List Reg}
    (h : ChangesOnlyRegs s t ks) (h' : ChangesOnlyRegs (s.withRegs v) t' ks)
    (hks : ∀ k ∈ ks, t'.getV k = t.getV k) : t' = t.withRegs (overwrite v ks t.getV) := by
  refine State.eq_withRegs ?_ fun k => ?_
  · rw [h.rest, h'.rest]; rfl
  · rw [← t.getV_withRegs, State.getV_withRegs_overwrite]
    split
    · exact hks k ‹_›
    · exact h'.regs k ‹_›

section
variable (s : State) (v : Vector Byte 16)

theorem State.setV_withRegs (x : Reg) (b : Byte) :
    (s.withRegs v).setV x b = (s.setV x b).withRegs (overwrite v [x] (s.setV x b).getV) :=
  (s.setV_frame x b).eq_withRegs_overwrite ((s.withRegs v).setV_frame x b) fun k hk => by
    cases List.mem_singleton.1 hk
    rw [State.getV_setV_same, State.getV_setV_same]

theorem State.setResultThenFlag_withRegs (x : Reg) (r f : Byte) :
    (s.withRegs v).setResultThenFlag x r f = (s.setResultThenFlag x r f).withRegs
      (overwrite v [x, 15] (s.setResultThenFlag x r f).getV) :=
  (s.setResultThenFlag_frame x r f).eq_withRegs_overwrite
    ((s.withRegs v).setResultThenFlag_frame x r f) fun k hk => by
      simp only [List.mem_cons, List.not_mem_nil, or_false] at hk
      rcases hk with rfl | rfl <;> simp [State.getV_setResultThenFlag]

theorem State.shiftInPlace_withRegs (x : Reg) (flag result : Byte → Byte) (hx : v[x.val] = s.getV x) :
    (s.withRegs v).shiftInPlace x flag result = (s.shiftInPlace x flag result).withRegs
      (overwrite v [x, 15] (s.shiftInPlace x flag result).getV) :=
  (s.shiftInPlace_frame x flag result).eq_withRegs_overwrite
    ((s.withRegs v).shiftInPlace_frame x flag result) fun k hk => by
      have hget : (s.withRegs v).getV x = s.getV x := hx
      have hparams : (s.withRegs v).params = s.params := rfl
      simp only [List.mem_cons, List.not_mem_nil, or_false] at hk
      simp only [State.shiftInPlace, hget, hparams]
      rcases hk with rfl | rfl <;> cases s.params.vfShiftOrder <;>
        simp [State.getV_setV, hget]

theorem State.loadLoop_withRegs (x : Reg) :
    (s.withRegs v).loadLoop (Reg.upTo x) = (s.loadLoop (Reg.upTo x)).withRegs
      (overwrite v (Reg.upTo x) (s.loadLoop (Reg.upTo x)).getV) :=
  (s.loadLoop_frame (Reg.upTo x)).eq_withRegs_overwrite
    ((s.withRegs v).loadLoop_frame (Reg.upTo x)) fun k hk => by
      have hk' : k ≤ x := (Reg.mem_upTo x k).1 hk
      exact ((s.withRegs v).getV_loadLoop_upTo x hk').trans (s.getV_loadLoop_upTo x hk').symm

theorem State.afterDraw_withRegs {x y : Reg} (n : Fin 16) (hx : v[x.val] = s.getV x)
    (hy : v[y.val] = s.getV y) : (s.withRegs v).afterDraw x y n =
      (s.afterDraw x y n).withRegs (overwrite v [15] (s.afterDraw x y n).getV) := by
  have hdrawn : (s.withRegs v).drawn x y n = s.drawn x y n := by
    simp only [State.drawn, State.getV_withRegs, hx, hy]; rfl
  refine State.eq_withRegs ?_ fun k => ?_
  · simp only [State.afterDraw, hdrawn]; rfl
  · rw [← State.getV_withRegs (s.afterDraw x y n), State.getV_withRegs_overwrite]
    by_cases hk : k = 15
    · rw [hk, if_pos (List.mem_singleton_self _), State.afterDraw_getV_flag, State.afterDraw_getV_flag,
        hdrawn]
    · rw [if_neg (by simpa using hk), State.afterDraw_getV_other _ _ _ _ hk, State.getV_withRegs]

theorem State.skipIf_withRegs (b : Bool) : (s.withRegs v).skipIf b = (s.skipIf b).withRegs v := by
  cases b <;> rfl

theorem State.writeBytes_withRegs (a : Nat) (bs : List Byte) :
    (s.withRegs v).writeBytes a bs = (s.writeBytes a bs).withRegs v := by
  induction bs generalizing s a with
  | nil => rfl
  | cons b bs ih => exact ih (s.writeByte a b) (a + 1)

theorem State.storeBytes_withRegs (a : Nat) (bs : List Byte) :
    (s.withRegs v).storeBytes a bs = (s.storeBytes a bs).withRegs v := by
  by_cases h : s.storeFaults a bs.length
  · rw [s.storeBytes_of_storeFaults rfl h, (s.withRegs v).storeBytes_of_storeFaults rfl h]
    rfl
  · rw [s.storeBytes_of_not_storeFaults rfl h, (s.withRegs v).storeBytes_of_not_storeFaults rfl h,
      State.writeBytes_withRegs]

theorem State.regsUpTo_withRegs {x : Reg} (h : ∀ k, k ≤ x → v[k.val] = s.getV k) :
    (s.withRegs v).regsUpTo x = s.regsUpTo x :=
  List.map_congr_left fun k hk => h k ((Reg.mem_upTo x k).1 hk)

theorem State.keyOperand_withRegs {x : Reg} (hx : v[x.val] = s.getV x) :
    (s.withRegs v).keyOperand x = s.keyOperand x := by
  have hget : (s.withRegs v).getV x = s.getV x := hx
  simp only [State.keyOperand, hget]
  rfl

theorem State.keySkip_withRegs {x : Reg} (cond : Bool → Bool) (hx : v[x.val] = s.getV x) :
    (s.withRegs v).keySkip x cond = (s.keySkip x cond).withRegs v := by
  have hkey := s.keyOperand_withRegs v hx
  cases ho : s.keyOperand x with
  | none =>
    rw [s.keySkip_of_none x cond ho, (s.withRegs v).keySkip_of_none x cond (hkey.trans ho)]
    rfl
  | some held =>
    rw [s.keySkip_of_some x cond ho, (s.withRegs v).keySkip_of_some x cond (hkey.trans ho),
      State.skipIf_withRegs]

end

/-- FX0A waits exactly when no key is held (R138). -/
theorem State.lowestKey_eq_none_iff (s : State) : s.lowestKey = none ↔ s.cycle.keys = 0 := by
  constructor
  · intro h
    rcases s.lowestKey_cases with ⟨-, hnone⟩ | ⟨k, -, hk, -⟩
    · refine BitVec.eq_of_getLsbD_eq fun k hk => ?_
      rw [← State.keyHeld, hnone k hk]
      simp
    · rw [h] at hk; cases hk
  · exact fun h => s.lowestKey_eq_none fun k _ => by simp [h]

/-- R23, both columns in one: the read registers decide everything but the registers that stay. -/
theorem exec_withRegs {i : Instr} {s t : State} {v : Vector Byte 16} (h : exec i s = .next t)
    (hv : ∀ k ∈ i.regsRead, v[k.val] = s.getV k) :
    exec i (s.withRegs v) =
      .next (t.withRegs (overwrite v (i.regsWritten (decide (s.cycle.keys ≠ 0))) t.getV)) := by
  have hget : ∀ k ∈ i.regsRead, (s.withRegs v).getV k = s.getV k := hv
  cases i with
  | cls | jp | ldI =>
    cases h
    rw [Instr.regsWritten, overwrite_nil]; rfl
  | jpV0 nnn =>
    cases h
    rw [exec_jpV0, hget 0 (by simp [Instr.regsRead]), Instr.regsWritten, overwrite_nil]; rfl
  | addI x | ldF x | ldDtVx x | ldStVx x =>
    have hx := hget x (by simp [Instr.regsRead])
    cases h
    simp only [exec_addI, exec_ldF, exec_ldDtVx, exec_ldStVx, hx, Instr.regsWritten, overwrite_nil]
    rfl
  | seByte x nn | sneByte x nn =>
    have hx := hget x (by simp [Instr.regsRead])
    cases h
    simp only [exec_seByte, exec_sneByte, hx, Instr.regsWritten, overwrite_nil, State.skipIf_withRegs]
  | seReg x y | sneReg x y =>
    have hx := hget x (by simp [Instr.regsRead])
    have hy := hget y (by simp [Instr.regsRead])
    cases h
    simp only [exec_seReg, exec_sneReg, hx, hy, Instr.regsWritten, overwrite_nil, State.skipIf_withRegs]
  | skp x =>
    cases (exec_skp s x).symm.trans h
    rw [exec_skp, s.keySkip_withRegs v id (hv x (by simp [Instr.regsRead])), Instr.regsWritten,
      overwrite_nil]
  | sknp x =>
    cases (exec_sknp s x).symm.trans h
    rw [exec_sknp, s.keySkip_withRegs v not (hv x (by simp [Instr.regsRead])), Instr.regsWritten,
      overwrite_nil]
  | ldByte x | rnd x | ldVxDt x =>
    cases h
    simp only [exec_ldByte, exec_rnd, exec_ldVxDt, State.setV_withRegs]
    rfl
  | addByte x nn =>
    cases h
    rw [exec_addByte, hget x (by simp [Instr.regsRead]), State.setV_withRegs]
    rfl
  | ldReg x y =>
    cases h
    rw [exec_ldReg, hget y (by simp [Instr.regsRead]), State.setV_withRegs]
    rfl
  | orReg x y | andReg x y | xorReg x y =>
    have hx := hget x (by simp [Instr.regsRead])
    have hy := hget y (by simp [Instr.regsRead])
    cases h
    simp only [exec_orReg, exec_andReg, exec_xorReg, hx, hy, State.setV_withRegs]
    rfl
  | addReg x y | subReg x y | subnReg x y =>
    have hx := hget x (by simp [Instr.regsRead])
    have hy := hget y (by simp [Instr.regsRead])
    cases h
    simp only [exec_addReg, exec_subReg, exec_subnReg, hx, hy, State.setResultThenFlag_withRegs]
    rfl
  | shr x | shl x =>
    have hx := hv x (by simp [Instr.regsRead])
    cases h
    simp only [exec_shr, exec_shl, s.shiftInPlace_withRegs v x _ _ hx]
    rfl
  | drw x y n =>
    cases h
    rw [exec_drw, s.afterDraw_withRegs v n (hv x (by simp [Instr.regsRead]))
      (hv y (by simp [Instr.regsRead]))]
    rfl
  | ldB x =>
    cases h
    rw [exec_ldB, hget x (by simp [Instr.regsRead]), State.storeBytes_withRegs, Instr.regsWritten,
      overwrite_nil]
    rfl
  | storeRegs x =>
    have hregs := s.regsUpTo_withRegs v (x := x) fun k hk => hv k (by simpa [Instr.regsRead] using hk)
    cases h
    rw [exec_storeRegs, hregs, State.storeBytes_withRegs, Instr.regsWritten, overwrite_nil]
    rfl
  | loadRegs x =>
    cases h
    rw [exec_loadRegs, State.loadLoop_withRegs]
    rfl
  | ret =>
    rw [Instr.regsWritten, overwrite_nil]
    rcases s.stack.eq_nil_or_concat' with hs | ⟨below, a, hs⟩
    · cases (exec_ret_of_nil s hs).symm.trans h
      exact exec_ret_of_nil (s.withRegs v) hs
    · cases (exec_ret_of_append s hs).symm.trans h
      exact exec_ret_of_append (s.withRegs v) hs
  | call nnn =>
    rw [Instr.regsWritten, overwrite_nil]
    by_cases hs : s.stack.length = s.params.stackDepth
    · cases (exec_call_of_full s nnn hs).symm.trans h
      exact exec_call_of_full (s.withRegs v) nnn hs
    · cases (exec_call_of_room s nnn hs).symm.trans h
      exact exec_call_of_room (s.withRegs v) nnn hs
  | ldVxK x =>
    cases hk : s.lowestKey with
    | none =>
      have hkeys := s.lowestKey_eq_none_iff.1 hk
      cases (exec_ldVxK_of_none s x hk).symm.trans h
      simp only [Instr.regsWritten, hkeys, ne_eq, not_true_eq_false, decide_false, Bool.false_eq_true,
        if_false, overwrite_nil]
      exact exec_ldVxK_of_none (s.withRegs v) x hk
    | some k =>
      have hkeys : s.cycle.keys ≠ 0 := fun h0 => by
        rw [s.lowestKey_eq_none_iff.2 h0] at hk; cases hk
      cases (exec_ldVxK_of_some s x hk).symm.trans h
      simp only [Instr.regsWritten, decide_eq_true hkeys, if_true]
      rw [exec_ldVxK_of_some (s.withRegs v) x hk, State.setV_withRegs]

/-- R23, the write column. -/
theorem exec_getV_of_not_written {i : Instr} {s t : State} (h : exec i s = .next t) {k : Reg}
    (hk : k ∉ i.regsWritten (decide (s.cycle.keys ≠ 0))) : t.getV k = s.getV k := by
  have hself := exec_withRegs h (v := s.v) fun _ _ => rfl
  rw [s.withRegs_self, h] at hself
  injection hself with ht
  rw [ht, State.getV_withRegs_overwrite, if_neg hk]
  rfl

theorem mem_regsWritten_vf {i : Instr} {held : Bool} (h : 15 ∈ i.regsWritten held) :
    i.setsFlag = true ∨ i.namesVf = true := by
  cases i with
  | addReg | subReg | shr | subnReg | shl | drw => exact .inl rfl
  | ldByte x | addByte x | ldReg x | orReg x | andReg x | xorReg x | rnd x | ldVxDt x =>
    exact .inr (beq_iff_eq.2 (List.mem_singleton.1 h).symm)
  | ldVxK x =>
    cases held with
    | true => exact .inr (beq_iff_eq.2 (List.mem_singleton.1 h).symm)
    | false => exact absurd h List.not_mem_nil
  | loadRegs x =>
    have hx : (15 : Reg) ≤ x := by simpa [Instr.regsWritten] using h
    exact .inr (beq_iff_eq.2 (Fin.le_antisymm (Fin.le_last x) hx))
  | _ => exact absurd h List.not_mem_nil

end Sys2Proof.Machine

namespace Sys2Proof
open Machine

/-- Settles O28: both columns of R23 are `exec_withRegs`. -/
theorem registerTableIsKept : Obligations.RegisterTableIsKept := by
  intro i s t h written
  refine ⟨fun k hk => exec_getV_of_not_written h hk, fun v hv =>
    ⟨_, exec_withRegs h hv, rfl, fun k hk => ?_, fun k hk => ?_⟩⟩
  · rw [State.getV_withRegs_overwrite, if_pos hk]
  · rw [State.getV_withRegs_overwrite, if_neg hk]

/-- Settles O29: a register that changes is in the write column (R23), and for VF that is R22. -/
theorem vfIsWrittenOnlyByFlagInstructions : Obligations.VfIsWrittenOnlyByFlagInstructions :=
  fun _ _ _ h hne => mem_regsWritten_vf (by_contra fun hk => hne (exec_getV_of_not_written h hk))

end Sys2Proof
end

section
/-!
PROOFS. The writers of each state element (spec/10_state.md R20), `pc` after each instruction (R25), and the font
under FONT_WRITE = fault (spec/20_memory.md R58).
-/

namespace Sys2Proof.Machine

section
variable {i : Instr} {s t : State}

theorem exec_keeps_or_halts (h : exec i s = .next t) :
    (t.phase = s.phase ∧ t.fault = s.fault) ∨ ∃ c, i.faultKind = some c ∧ t = takeFault c s := by
  rcases exec_keepsOrRaises i s with ⟨t', ht, hkept⟩ | ⟨c, hc, ht⟩ <;> cases h.symm.trans ht
  · exact .inl hkept
  · exact .inr ⟨c, hc, rfl⟩

/-! ### Memory -/

/-- What no instruction changes: the parameters, the pending requests, the inputs of the cycle and the tone. -/
theorem exec_keeps (h : exec i s = .next t) : t.params = s.params ∧ t.requests = s.requests ∧
    t.cycle = s.cycle ∧ t.toneStrobe = s.toneStrobe := by
  rcases exec_frame h with hf | ⟨c, -, rfl⟩
  · cases i with
    | drw | ret | call | ldVxK => obtain ⟨_, _, rfl⟩ := hf; exact ⟨rfl, rfl, rfl, rfl⟩
    | _ => obtain ⟨_, rfl⟩ := hf; exact ⟨rfl, rfl, rfl, rfl⟩
  · exact ⟨rfl, rfl, rfl, rfl⟩

theorem exec_params (h : exec i s = .next t) : t.params = s.params := by
  obtain ⟨hparams, -, -, -⟩ := exec_keeps h
  exact hparams

theorem exec_cycle (h : exec i s = .next t) : t.cycle = s.cycle := by
  obtain ⟨-, -, hcycle, -⟩ := exec_keeps h
  exact hcycle

theorem exec_toneStrobe (h : exec i s = .next t) : t.toneStrobe = s.toneStrobe := by
  obtain ⟨-, -, -, htone⟩ := exec_keeps h
  exact htone

/-- R54: memory changes in a program store only. -/
theorem exec_mem (h : exec i s = .next t) : t.mem = s.mem ∨ ∃ a bs, t = s.storeBytes a bs := by
  rcases exec_frame h with hf | ⟨c, -, rfl⟩
  · cases i with
    | ldB x => cases h; exact .inr ⟨_, _, rfl⟩
    | storeRegs x => cases h; exact .inr ⟨_, _, rfl⟩
    | drw | ret | call | ldVxK => obtain ⟨_, _, rfl⟩ := hf; exact .inl rfl
    | _ => obtain ⟨_, rfl⟩ := hf; exact .inl rfl
  · exact .inl rfl

theorem State.readByte_congr (hparams : t.params = s.params) (hmem : t.mem = s.mem) (a : Nat) :
    t.readByte a = s.readByte a := by
  rw [State.readByte, hparams, hmem, State.readByte]

/-- R58, R60: a store that would touch the font faults. -/
theorem State.readByte_storeBytes_font (hfont : s.params.fontWrite = .fault) (a : Nat) (bs : List Byte)
    {c : Nat} (hc : Config.inFont (reduce c) = true) : (s.storeBytes a bs).readByte c = s.readByte c := by
  rcases s.storeBytes_cases a bs with ⟨-, -, he⟩ | ⟨hno, he⟩
  · rw [he]; rfl
  · rw [he]
    refine s.readByte_writeBytes_other a bs c fun k hk heq => hno ⟨hfont, ?_⟩
    exact (touchesFont_eq_true a bs.length).2 ⟨k, hk, heq ▸ hc⟩

theorem exec_readByte_font (hfont : s.params.fontWrite = .fault) (h : exec i s = .next t) {c : Nat}
    (hc : Config.inFont (reduce c) = true) : t.readByte c = s.readByte c := by
  rcases exec_mem h with hmem | ⟨a, bs, rfl⟩
  · exact State.readByte_congr (exec_params h) hmem c
  · exact s.readByte_storeBytes_font hfont a bs hc

theorem exec_mem_wf (h : exec i s = .next t) (hwf : Memory.wf s.params s.mem) :
    Memory.wf t.params t.mem := by
  rcases exec_mem h with hmem | ⟨a, bs, rfl⟩
  · rwa [exec_params h, hmem]
  · exact s.storeBytes_wf a bs hwf

/-! ### The program counter -/

theorem pcAfter_of_not_redirectsPc (h : i.redirectsPc = false) (p : Nat) (s : State) :
    i.pcAfter p s = p + 2 := by
  cases i with
  | jp | call | jpV0 | ret | seByte | sneByte | seReg | sneReg | skp | sknp | ldVxK => cases h
  | _ => rfl

theorem exec_pc_of_not_redirectsPc (hi : i.redirectsPc = false) (h : exec i s = .next t) :
    t.pc = s.pc ∨ ∃ c, i.faultKind = some c ∧ t = takeFault c s := by
  refine (exec_frame h).imp_left fun hf => ?_
  cases i with
  | jp | call | jpV0 | ret | seByte | sneByte | seReg | sneReg | skp | sknp | ldVxK => cases hi
  | drw => obtain ⟨_, _, rfl⟩ := hf; rfl
  | _ => obtain ⟨_, rfl⟩ := hf; rfl

/-- A skip, from the address after the instruction (R111 to R114, R136, R137). -/
theorem State.skipIf_pc_of_fetched {p : Word} (hpc : s.pc = p + 2) (b : Bool) :
    (s.skipIf b).pc.toNat = (if b = true then p.toNat + 4 else p.toNat + 2) % 65536 := by
  rw [State.skipIf_pc_toNat, hpc, BitVec.toNat_add]
  cases b with
  | false => rfl
  | true => simp only [BitVec.reduceToNat, if_true]; omega

/-- EX9E and EXA1 without a fault: a number above 0x0F names no held key (R136, R137). -/
theorem State.keySkip_pc_of_fetched {p : Word} (hpc : s.pc = p + 2) (x : Reg) (cond : Bool → Bool)
    (hrun : (s.keySkip x cond).phase = .run) : (s.keySkip x cond).pc.toNat =
      (if cond (decide ((s.getV x).toNat ≤ 15) && s.cycle.keys.getLsbD (s.getV x).toNat) = true
        then p.toNat + 4 else p.toNat + 2) % 65536 := by
  by_cases hno : (s.getV x).toNat ≤ 15 ∨ s.params.keyRange = .notHeld
  · rw [s.keySkip_of_some x cond (s.keyOperand_eq_some x hno), State.skipIf_pc_of_fetched hpc]
  · have hfault : s.params.keyRange = .fault := by
      cases hp : s.params.keyRange with
      | fault => rfl
      | notHeld => exact absurd (.inr hp) hno
    rw [s.keySkip_of_none x cond (s.keyOperand_eq_none x (by omega) hfault)] at hrun
    cases hrun

/-- R25: the table, for every instruction that raises no fault. -/
theorem exec_pc (hpc : s.pc = s.cycle.addr + 2) (h : exec i s = .next t) (hrun : t.phase = .run) :
    t.pc.toNat = i.pcAfter s.cycle.addr.toNat s % 65536 := by
  have hpc' : s.pc.toNat = (s.cycle.addr.toNat + 2) % 65536 := by rw [hpc, BitVec.toNat_add]; rfl
  cases i with
  | seByte | sneByte | seReg | sneReg => cases h; exact s.skipIf_pc_of_fetched hpc _
  | skp x =>
    cases (exec_skp s x).symm.trans h
    exact s.keySkip_pc_of_fetched hpc x id hrun
  | sknp x =>
    cases (exec_sknp s x).symm.trans h
    exact s.keySkip_pc_of_fetched hpc x not hrun
  | jp nnn =>
    cases h
    exact (Nat.mod_eq_of_lt (BitVec.isLt (addrOperand nnn))).symm.trans
      (congrArg (· % 65536) (addrOperand_toNat nnn))
  | jpV0 nnn =>
    cases h
    rw [BitVec.toNat_add, addrOperand_toNat, widenByte_toNat]; rfl
  | call nnn =>
    by_cases hs : s.stack.length = s.params.stackDepth
    · cases (exec_call_of_full s nnn hs).symm.trans h; cases hrun
    · cases (exec_call_of_room s nnn hs).symm.trans h
      exact (Nat.mod_eq_of_lt (BitVec.isLt (addrOperand nnn))).symm.trans
        (congrArg (· % 65536) (addrOperand_toNat nnn))
  | ret =>
    rcases s.stack.eq_nil_or_concat' with hs | ⟨below, a, hs⟩
    · cases (exec_ret_of_nil s hs).symm.trans h; cases hrun
    · cases (exec_ret_of_append s hs).symm.trans h
      have hlast : Instr.pcAfter .ret s.cycle.addr.toNat s = a.toNat := by
        rw [show Instr.pcAfter .ret s.cycle.addr.toNat s = (s.stack.getLastD 0).toNat from rfl, hs,
          List.getLastD_concat]
      rw [hlast]
      exact (Nat.mod_eq_of_lt a.isLt).symm
  | ldVxK x =>
    have hafter : Instr.pcAfter (.ldVxK x) s.cycle.addr.toNat s =
        if s.cycle.keys = 0 then s.cycle.addr.toNat else s.cycle.addr.toNat + 2 := rfl
    cases hk : s.lowestKey with
    | none =>
      have haddr := s.cycle.addr.isLt
      cases (exec_ldVxK_of_none s x hk).symm.trans h
      rw [hafter, if_pos (s.lowestKey_eq_none_iff.1 hk), s.rewind_pc_toNat, hpc']
      omega
    | some k =>
      have hkeys : s.cycle.keys ≠ 0 := fun h0 => by
        rw [s.lowestKey_eq_none_iff.2 h0] at hk; cases hk
      cases (exec_ldVxK_of_some s x hk).symm.trans h
      rw [hafter, if_neg hkeys]
      exact hpc'
  | _ =>
    rcases exec_pc_of_not_redirectsPc rfl h with hkept | ⟨c, -, rfl⟩
    · rw [hkept, hpc', pcAfter_of_not_redirectsPc rfl]
    · cases hrun

end

end Sys2Proof.Machine

namespace Sys2Proof
open Machine

/-- Settles O26: the fault of R149 is all that an instruction can raise. -/
theorem eachInstructionRaisesOneKind : Obligations.EachInstructionRaisesOneKind := fun _ s _ h =>
  (exec_keeps_or_halts h).imp_right fun ⟨c, hc, ht⟩ => ⟨c, hc, ht ▸ takeFault_halts c s⟩

/-- Settles O31: an instruction stays in its frame, or takes its one fault (R143, R149). -/
theorem eachStateElementHasItsWriters : Obligations.EachStateElementHasItsWriters := by
  intro i s t h
  refine ⟨fun k hne => by_contra fun hk => hne (exec_getV_of_not_written h hk), ?_⟩
  rcases exec_frame h with hf | ⟨c, hc, rfl⟩
  · cases i with
    | drw | ret | call | ldVxK => obtain ⟨_, _, rfl⟩ := hf; simp [Instr.redirectsPc]
    | _ => obtain ⟨_, rfl⟩ := hf; simp [Instr.redirectsPc]
  · exact ⟨fun _ => .inr ⟨c, hc, takeFault_halts c s⟩, absurd rfl, absurd rfl, absurd rfl, absurd rfl,
      absurd rfl, absurd rfl, fun _ => ⟨c, hc, rfl⟩, fun _ => ⟨c, hc, rfl⟩, absurd rfl, rfl, rfl, rfl, rfl⟩

/-- Settles O30: the table of R25, or the fault, which puts `pc` back (R143). -/
theorem pcAfterEachInstruction : Obligations.PcAfterEachInstruction := by
  intro i s t hphase hpc h
  refine ⟨exec_pc hpc h, fun hne => ?_⟩
  rcases exec_keeps_or_halts h with ⟨hkept, -⟩ | ⟨c, -, rfl⟩
  · exact absurd (hkept.trans hphase) hne
  · rfl

/-- Settles O36: R58, for the one instruction that runs. -/
theorem noInstructionChangesTheFont : Obligations.NoInstructionChangesTheFont := by
  intro i s t a hfont h hlo hhi
  refine exec_readByte_font hfont h (decide_eq_true ?_)
  simp only [reduce, Config.fontBase, Config.fontSize, Config.memSize]
  omega

end Sys2Proof
end

section
/-!
PROOFS. The inputs of a cycle (spec/40_cycle.md R93, R99): an instruction run with another latch answers the
same, unless it reads what differs.
-/

namespace Sys2Proof.Machine

/-- `s` with the latch `c`. -/
def State.withCycle (s : State) (c : CycleLatch) : State := { s with cycle := c }

section
variable (s : State) (c : CycleLatch)

theorem State.skipIf_withCycle (b : Bool) : (s.withCycle c).skipIf b = (s.skipIf b).withCycle c := by
  cases b <;> rfl

theorem State.shiftInPlace_withCycle (x : Reg) (flag result : Byte → Byte) :
    (s.withCycle c).shiftInPlace x flag result = (s.shiftInPlace x flag result).withCycle c := by
  have hparams : (s.withCycle c).params = s.params := rfl
  simp only [State.shiftInPlace, hparams]
  cases s.params.vfShiftOrder <;> rfl

theorem State.loadLoop_withCycle (ks : List Reg) :
    (s.withCycle c).loadLoop ks = (s.loadLoop ks).withCycle c := by
  induction ks generalizing s with
  | nil => rfl
  | cons k ks ih => exact ih (s.setV k (s.readByte (s.idx.toNat + k.val)))

theorem State.writeBytes_withCycle (a : Nat) (bs : List Byte) :
    (s.withCycle c).writeBytes a bs = (s.writeBytes a bs).withCycle c := by
  induction bs generalizing s a with
  | nil => rfl
  | cons b bs ih => exact ih (s.writeByte a b) (a + 1)

variable {c}

theorem takeFault_withCycle (code : FaultCode) (haddr : c.addr = s.cycle.addr)
    (hword : c.word = s.cycle.word) :
    takeFault code (s.withCycle c) = (takeFault code s).withCycle c := by
  simp only [takeFault, State.withCycle, haddr, hword]

theorem State.storeBytes_withCycle (haddr : c.addr = s.cycle.addr) (hword : c.word = s.cycle.word)
    (a : Nat) (bs : List Byte) :
    (s.withCycle c).storeBytes a bs = (s.storeBytes a bs).withCycle c := by
  by_cases h : s.storeFaults a bs.length
  · rw [s.storeBytes_of_storeFaults rfl h, (s.withCycle c).storeBytes_of_storeFaults rfl h,
      takeFault_withCycle s _ haddr hword]
  · rw [s.storeBytes_of_not_storeFaults rfl h, (s.withCycle c).storeBytes_of_not_storeFaults rfl h,
      State.writeBytes_withCycle]

theorem State.keyHeld_withCycle (hkeys : c.keys = s.cycle.keys) :
    (s.withCycle c).keyHeld = s.keyHeld :=
  funext fun k => congrArg (fun b : BitVec 16 => b.getLsbD k) hkeys

theorem State.keyOperand_withCycle (hkeys : c.keys = s.cycle.keys) (x : Reg) :
    (s.withCycle c).keyOperand x = s.keyOperand x := by
  rw [State.keyOperand, State.keyHeld_withCycle s hkeys]; rfl

theorem State.keySkip_withCycle (haddr : c.addr = s.cycle.addr) (hword : c.word = s.cycle.word)
    (hkeys : c.keys = s.cycle.keys) (x : Reg) (cond : Bool → Bool) :
    (s.withCycle c).keySkip x cond = (s.keySkip x cond).withCycle c := by
  have hkey := s.keyOperand_withCycle hkeys x
  cases ho : s.keyOperand x with
  | none =>
    rw [s.keySkip_of_none x cond ho, (s.withCycle c).keySkip_of_none x cond (hkey.trans ho),
      takeFault_withCycle s _ haddr hword]
  | some held =>
    rw [s.keySkip_of_some x cond ho, (s.withCycle c).keySkip_of_some x cond (hkey.trans ho),
      State.skipIf_withCycle]

theorem State.lowestKey_withCycle (hkeys : c.keys = s.cycle.keys) :
    (s.withCycle c).lowestKey = s.lowestKey := by
  rw [State.lowestKey, State.keyHeld_withCycle s hkeys, State.lowestKey]

end

/-- The random byte reaches CXNN alone, the keys EX9E, EXA1 and FX0A alone (R93, R99). -/
theorem exec_withCycle {i : Instr} {s t : State} {c : CycleLatch} (h : exec i s = .next t)
    (haddr : c.addr = s.cycle.addr) (hword : c.word = s.cycle.word)
    (hrnd : (∀ x nn, i ≠ .rnd x nn) ∨ c.rnd = s.cycle.rnd)
    (hkeys : (∀ x, i ≠ .skp x ∧ i ≠ .sknp x ∧ i ≠ .ldVxK x) ∨ c.keys = s.cycle.keys) :
    exec i (s.withCycle c) = .next (t.withCycle c) := by
  cases i with
  | rnd x nn =>
    have hr : (s.withCycle c).cycle.rnd = s.cycle.rnd := hrnd.resolve_left fun hno => hno x nn rfl
    cases h
    rw [exec_rnd, hr]
    rfl
  | skp x =>
    have hk := hkeys.resolve_left fun hno => (hno x).1 rfl
    cases (exec_skp s x).symm.trans h
    rw [exec_skp, s.keySkip_withCycle haddr hword hk]
  | sknp x =>
    have hk := hkeys.resolve_left fun hno => (hno x).2.1 rfl
    cases (exec_sknp s x).symm.trans h
    rw [exec_sknp, s.keySkip_withCycle haddr hword hk]
  | ldVxK x =>
    have hk := s.lowestKey_withCycle (hkeys.resolve_left fun hno => (hno x).2.2 rfl)
    cases hs : s.lowestKey with
    | none =>
      cases (exec_ldVxK_of_none s x hs).symm.trans h
      exact exec_ldVxK_of_none _ x (hk.trans hs)
    | some k =>
      cases (exec_ldVxK_of_some s x hs).symm.trans h
      exact exec_ldVxK_of_some _ x (hk.trans hs)
  | ret =>
    rcases s.stack.eq_nil_or_concat' with hs | ⟨below, a, hs⟩
    · cases (exec_ret_of_nil s hs).symm.trans h
      rw [exec_ret_of_nil (s.withCycle c) hs, takeFault_withCycle s _ haddr hword]
    · cases (exec_ret_of_append s hs).symm.trans h
      exact exec_ret_of_append (s.withCycle c) hs
  | call nnn =>
    by_cases hs : s.stack.length = s.params.stackDepth
    · cases (exec_call_of_full s nnn hs).symm.trans h
      rw [exec_call_of_full (s.withCycle c) nnn hs, takeFault_withCycle s _ haddr hword]
    · cases (exec_call_of_room s nnn hs).symm.trans h
      exact exec_call_of_room (s.withCycle c) nnn hs
  | ldB | storeRegs =>
    cases h
    exact congrArg _ (s.storeBytes_withCycle haddr hword _ _)
  | seByte | sneByte | seReg | sneReg =>
    cases h
    exact congrArg _ (s.skipIf_withCycle c _)
  | shr x | shl x =>
    cases h
    exact congrArg _ (s.shiftInPlace_withCycle c x _ _)
  | loadRegs x =>
    cases h
    exact congrArg _ (s.loadLoop_withCycle c _)
  | _ =>
    cases h
    rfl

end Sys2Proof.Machine

namespace Sys2Proof
open Machine

/-- Settles O33: both inputs stand in the latch, and `exec_withCycle` changes one of them. -/
theorem inputsReachOnlyTheirInstructions : Obligations.InputsReachOnlyTheirInstructions := by
  intro i s t h
  rw [exec_cycle h]
  exact ⟨fun hrnd r => exec_withCycle (c := { s.cycle with rnd := r }) h rfl rfl (.inl hrnd) (.inr rfl),
    fun hkeys k => exec_withCycle (c := { s.cycle with keys := k }) h rfl rfl (.inr rfl) (.inl hkeys)⟩

end Sys2Proof
end

section
/-!
PROOFS. Rules of the whole machine, over every step: the fault record (spec/60_exceptions.md R143, R165), the
strobes (R107, R155), the delay timer (R174), a parked core (R101) and the status outputs (R51).
-/

namespace Sys2Proof.Machine

section
variable {s t : State}

/-! ### The requests outside a cycle, by what they can change -/

theorem State.takeStart_eq (s : State) :
    s.takeStart = { s with pc := s.takeStart.pc, phase := s.takeStart.phase } := by
  by_cases hphase : s.phase = .load
  · rw [State.takeStart_of_load hphase]
  · rw [State.takeStart_of_phase_ne_load hphase]

theorem State.takeTick_eq (s : State) : s.takeTick =
    { s with dt := s.takeTick.dt, st := s.takeTick.st, toneStrobe := s.takeTick.toneStrobe } := by
  by_cases hphase : s.phase = .run
  · rw [State.takeTick_of_run hphase]
  · rw [State.takeTick_of_phase_ne_run hphase]

theorem State.takeTick_dt_le (s : State) : s.takeTick.dt.toNat ≤ s.dt.toNat := by
  by_cases hphase : s.phase = .run
  · rw [State.takeTick_of_run hphase]
    exact (countDown_toNat s.dt).trans_le (Nat.sub_le _ _)
  · rw [State.takeTick_of_phase_ne_run hphase]

/-- R155: a tick in phase RUN that finds ST nonzero sounds. -/
theorem State.takeTick_toneStrobe (s : State) (hlow : s.toneStrobe = false) :
    s.takeTick.toneStrobe = true ↔ s.phase = .run ∧ s.st ≠ 0 := by
  by_cases hphase : s.phase = .run
  · rw [State.takeTick_of_run hphase]
    exact bne_iff_ne.trans (iff_and_self.2 fun _ => hphase)
  · rw [State.takeTick_of_phase_ne_run hphase]
    simp [hlow, hphase]

/-- R165: a halted core takes no request but reset. -/
theorem step_of_halted (hphase : s.phase = .halted) (hreq : s.requests.head? ≠ some .reset)
    (h : step s = .next t) : t.phase = .halted ∧ t.fault = s.fault := by
  have hload : ∀ rest, (s.accepted rest).phase ≠ .load := fun _ hl => by cases hphase.symm.trans hl
  have hrun : ∀ rest, (s.accepted rest).phase ≠ .run := fun _ hr => by cases hphase.symm.trans hr
  cases step_cases h with
  | idle _ ht => exact ht ▸ ⟨hphase, rfl⟩
  | reset rest hr ht => exact absurd (by rw [hr]; rfl) hreq
  | load a b rest hr ht =>
    rw [State.takeLoad_of_phase_ne_load (hload rest)] at ht
    exact ht ▸ ⟨hphase, rfl⟩
  | start rest hr ht =>
    rw [State.takeStart_of_phase_ne_load (hload rest)] at ht
    exact ht ▸ ⟨hphase, rfl⟩
  | tick rest hr ht =>
    rw [State.takeTick_of_phase_ne_run (hrun rest)] at ht
    exact ht ▸ ⟨hphase, rfl⟩
  | cycleIgnored keys rnd rest hr hp ht => exact ht ▸ ⟨hphase, rfl⟩
  | illegal keys rnd rest e hr hdec ht => exact absurd hr.1 (hrun rest)
  | instr keys rnd rest i hr hdec hexec => exact absurd hr.1 (hrun rest)

/-- R143: a cycle stays in phase RUN without a record, or is a fault of the state that fetched. -/
theorem cycle_keeps_or_halts {keys : BitVec 16} {rnd : Byte} {rest : List Request}
    (hrun : s.aboutToRun keys rnd rest) (h : step s = .next t) :
    (t.phase = .run ∧ t.fault = s.fault) ∨ ∃ c, t = takeFault c (s.fetched keys rnd rest) := by
  cases hdec : decode (s.fetch s.pc.toNat) with
  | error e =>
    exact .inr ⟨_, (Host.Outcome.next.inj ((step_of_decode_error hrun hdec).symm.trans h)).symm⟩
  | ok i =>
    rcases exec_keeps_or_halts ((step_of_decode_ok hrun hdec).symm.trans h) with hkept | ⟨c, -, ht⟩
    · exact .inl ⟨hkept.1.trans hrun.1, hkept.2⟩
    · exact .inr ⟨c, ht⟩

/-! ### The strobes and the delay timer -/

/-- R107: the frame strobe of an instruction. -/
theorem exec_frameStrobe {i : Instr} (h : exec i s = .next t) (hlow : s.frameStrobe = false) :
    t.frameStrobe = true ↔ i = .cls ∨ ∃ x y n, i = .drw x y n := by
  rcases exec_frame h with hf | ⟨c, hc, rfl⟩
  · cases i with
    | cls => obtain ⟨_, rfl⟩ := hf; simp
    | drw => obtain ⟨_, _, rfl⟩ := hf; simp
    | ret | call | ldVxK => obtain ⟨_, _, rfl⟩ := hf; simp [hlow]
    | _ => obtain ⟨_, rfl⟩ := hf; simp [hlow]
  · rw [takeFault_frameStrobe, hlow]
    refine iff_of_false Bool.false_ne_true ?_
    rintro (rfl | ⟨x, y, n, rfl⟩) <;> cases hc

theorem step_frameStrobe_of_not_aboutToRun (hno : ¬ ∃ keys rnd rest, s.aboutToRun keys rnd rest)
    (h : step s = .next t) : t.frameStrobe = false := by
  cases step_cases h with
  | idle _ ht => exact ht ▸ rfl
  | reset rest _ ht => exact ht ▸ rfl
  | load a b rest _ ht => rw [ht, State.takeLoad_eq]; rfl
  | start rest _ ht => rw [ht, State.takeStart_eq]; rfl
  | tick rest _ ht => rw [ht, State.takeTick_eq]; rfl
  | cycleIgnored keys rnd rest _ _ ht => exact ht ▸ rfl
  | illegal keys rnd rest _ hrun => exact absurd ⟨keys, rnd, rest, hrun⟩ hno
  | instr keys rnd rest _ hrun => exact absurd ⟨keys, rnd, rest, hrun⟩ hno

theorem step_frameStrobe_of_aboutToRun {keys : BitVec 16} {rnd : Byte} {rest : List Request}
    (hrun : s.aboutToRun keys rnd rest) (h : step s = .next t) :
    t.frameStrobe = true ↔ decode (s.fetch s.pc.toNat) = .ok .cls ∨
      ∃ x y n, decode (s.fetch s.pc.toNat) = .ok (.drw x y n) := by
  cases hdec : decode (s.fetch s.pc.toNat) with
  | error e =>
    cases (step_of_decode_error hrun hdec).symm.trans h
    exact iff_of_false Bool.false_ne_true (by simp)
  | ok i =>
    simpa using exec_frameStrobe ((step_of_decode_ok hrun hdec).symm.trans h) rfl

theorem step_toneStrobe (h : step s = .next t) :
    t.toneStrobe = true ↔ s.phase = .run ∧ s.requests.head? = some .tick ∧ s.st ≠ 0 := by
  cases step_cases h with
  | tick rest hreq ht =>
    rw [ht, State.takeTick_toneStrobe _ rfl, hreq]
    simp [State.accepted]
  | idle hreq ht => rw [ht, hreq]; simp [State.idle]
  | reset rest hreq ht => rw [ht, hreq]; simp [State.takeReset, State.resetWith]
  | load a b rest hreq ht => rw [ht, State.takeLoad_eq, hreq]; simp [State.accepted]
  | start rest hreq ht => rw [ht, State.takeStart_eq, hreq]; simp [State.accepted]
  | cycleIgnored keys rnd rest hreq _ ht => rw [ht, hreq]; simp [State.accepted]
  | illegal keys rnd rest e hrun _ ht => rw [ht, hrun.2]; simp [State.fetched]
  | instr keys rnd rest i hrun _ hexec => rw [exec_toneStrobe hexec, hrun.2]; simp [State.fetched]

/-! ### A parked core -/

theorem packNNN_toNat (op : BitVec 4) (nnn : Addr) :
    (packNNN op nnn).toNat = op.toNat * 4096 + nnn.toNat := by
  have h : (packNNN op nnn).toNat = op.toNat <<< 12 ||| nnn.toNat := BitVec.toNat_append op nnn
  rw [h, ← Nat.shiftLeft_add_eq_or_of_lt nnn.isLt, Nat.shiftLeft_eq]

/-- The word that jumps to `n` modulo 4096 (R101, R109). -/
theorem decode_jump (n : Nat) :
    decode (BitVec.ofNat 16 (0x1000 + n % 4096)) = .ok (.jp (BitVec.ofNat 12 n)) := by
  have hword : encode (.jp (BitVec.ofNat 12 n)) = BitVec.ofNat 16 (0x1000 + n % 4096) := by
    refine BitVec.eq_of_toNat_eq ?_
    rw [encode, packNNN_toNat, BitVec.toNat_ofNat, BitVec.toNat_ofNat]
    exact (Nat.mod_eq_of_lt (by omega)).symm
  rw [← hword, decode_encode]

end

end Sys2Proof.Machine

namespace Sys2Proof
open Machine

/-- Settles O22: each output, in each case of the phase and of the record (R43, R51, R142). -/
theorem statusOutputsShowTheRecord : Obligations.StatusOutputsShowTheRecord := by
  refine fun s => ⟨?_, fun h => ?_, fun c w a h => ?_⟩
  · unfold State.phaseOut
    cases s.phase <;> rfl
  · rw [State.faultCodeOut, State.faultWordOut, State.faultAddrOut, h]
    exact ⟨rfl, rfl, rfl⟩
  · rw [State.faultCodeOut, State.faultWordOut, State.faultAddrOut, h]
    refine ⟨rfl, rfl, ?_⟩
    cases c <;> rfl

/-- Settles O24: a cycle that leaves phase RUN is a fault of the state that fetched (R143), written out. -/
theorem faultLeavesTheStateBeforeTheCycle : Obligations.FaultLeavesTheStateBeforeTheCycle := by
  intro s t keys rnd rest hrun h hne
  rcases cycle_keeps_or_halts hrun h with ⟨hphase, -⟩ | ⟨c, rfl⟩
  · exact absurd hphase hne
  · exact ⟨c, rfl⟩

/-- Settles O27: a core with a record is halted and keeps it, and only a cycle writes one (R143, R165). -/
theorem faultRecordIsWrittenOnce : Obligations.FaultRecordIsWrittenOnce := by
  refine fun s t hinv h => ⟨fun f hf hreq => ?_, fun f hf hf' => ?_⟩
  · have hhalted : s.phase = .halted := hinv.1 (by rw [hf]; rfl)
    obtain ⟨hphase, hfault⟩ := step_of_halted hhalted hreq h
    exact ⟨hfault.trans hf, hphase⟩
  · by_cases hrun : ∃ keys rnd rest, s.aboutToRun keys rnd rest
    · obtain ⟨keys, rnd, rest, hrun⟩ := hrun
      rcases cycle_keeps_or_halts hrun h with ⟨-, hkept⟩ | ⟨c, rfl⟩
      · rw [hkept, hf] at hf'; cases hf'
      · exact ⟨hrun.1, rfl⟩
    · rw [step_fault_of_not_aboutToRun hrun hf h] at hf'; cases hf'

/-- Settles O32: only an instruction can raise DT, and of those only FX15 writes it (R32). -/
theorem delayTimerRisesOnlyByItsLoad : Obligations.DelayTimerRisesOnlyByItsLoad := by
  intro s t h hlt
  cases step_cases h with
  | idle _ ht => subst ht; exact absurd hlt (Nat.lt_irrefl _)
  | reset rest _ ht => subst ht; exact absurd hlt (Nat.not_lt_zero _)
  | load a b rest _ ht =>
    rw [ht, State.takeLoad_eq] at hlt
    exact absurd hlt (Nat.lt_irrefl _)
  | start rest _ ht =>
    rw [ht, State.takeStart_eq] at hlt
    exact absurd hlt (Nat.lt_irrefl _)
  | tick rest _ ht => subst ht; exact absurd hlt (Nat.not_lt.2 (State.takeTick_dt_le _))
  | cycleIgnored keys rnd rest _ _ ht => subst ht; exact absurd hlt (Nat.lt_irrefl _)
  | illegal keys rnd rest e _ _ ht => subst ht; exact absurd hlt (Nat.lt_irrefl _)
  | instr keys rnd rest i hrun hdec hexec =>
    obtain ⟨-, -, -, -, hdt, -⟩ := eachStateElementHasItsWriters i _ t hexec
    obtain ⟨x, rfl⟩ := hdt fun heq => absurd hlt (by rw [heq]; exact Nat.lt_irrefl _)
    exact ⟨keys, rnd, rest, x, hrun, hdec⟩

/-- Settles O34: the frame strobe by the instruction that runs (R107), the tone strobe by the tick (R155). -/
theorem strobesPulseExactlyWhenDue : Obligations.StrobesPulseExactlyWhenDue := by
  refine fun s t h => ⟨?_, step_toneStrobe h⟩
  by_cases hex : ∃ keys rnd rest, s.aboutToRun keys rnd rest
  · obtain ⟨keys, rnd, rest, hrun⟩ := hex
    rw [step_frameStrobe_of_aboutToRun hrun h]
    exact ⟨fun hdec => ⟨keys, rnd, rest, hrun, hdec⟩, fun ⟨_, _, _, _, hdec⟩ => hdec⟩
  · rw [step_frameStrobe_of_not_aboutToRun hex h]
    exact iff_of_false Bool.false_ne_true fun ⟨keys, rnd, rest, hrun, _⟩ => hex ⟨keys, rnd, rest, hrun⟩

/-- Settles O35: the cycle is a jump to `pc` modulo 4096, where the same word stands (R55, R101). -/
theorem parkedCoreStaysParked : Obligations.ParkedCoreStaysParked := by
  intro s keys rnd rest hpark hrun
  obtain ⟨hphase, hword⟩ := hpark
  have hdec := decode_jump s.pc.toNat
  rw [← hword] at hdec
  have hpc : (addrOperand (BitVec.ofNat 12 s.pc.toNat)).toNat = s.pc.toNat % 4096 := by
    rw [addrOperand_toNat, BitVec.toNat_ofNat]
  refine ⟨_, (step_of_decode_ok hrun hdec).trans (exec_jp _ _), ⟨hphase, ?_⟩, hpc, fun _ => rfl,
    fun _ => rfl, rfl⟩
  change s.fetch (addrOperand _).toNat = BitVec.ofNat 16 (0x1000 + (addrOperand _).toNat % 4096)
  rw [hpc, Nat.mod_mod, s.fetch_mod, hword]

end Sys2Proof
end

section
/-!
PROOFS. The invariant of reachable states: reset meets it, and every step keeps it (spec/10_state.md R31, R42 to
R44, spec/20_memory.md R58, R72).
-/

namespace Sys2Proof.Machine

section
variable {s t : State}

/-- Outside phase LOAD, from a state that meets the invariant: what a step must keep. -/
theorem State.Inv.of_phase_ne_load (hs : s.Inv) (hphase : t.phase ≠ .load)
    (hparams : t.params = s.params) (hwf : Memory.wf t.params t.mem)
    (hstack : t.stack.length ≤ s.params.stackDepth)
    (hfault : t.fault.isSome = true ↔ t.phase = .halted)
    (hfont : s.params.fontWrite = .fault → ∀ a, Config.inFont a = true → t.readByte a = s.readByte a) :
    t.Inv where
  params := hparams ▸ hs.params
  memory := hwf
  stackBound := by rwa [hparams]
  faultIffHalted := hfault
  fontIntact hw a ha := by
    rw [hparams] at hw ⊢
    rw [hfont hw a ha, hs.fontIntact hw a ha]
  loadMemory hl := absurd hl hphase
  loadState hl := absurd hl hphase

/-- The requests, the strobes and the latch play no part in the invariant. -/
theorem State.Inv.accepted (hs : s.Inv) (rest : List Request) : (s.accepted rest).Inv where
  __ := hs

/-! ### An instruction cycle -/

theorem lt_progBase_of_inFont {a : Nat} (h : Config.inFont a = true) : a < Config.progBase := by
  have h := of_decide_eq_true h
  simp only [Config.fontBase, Config.fontSize] at h
  simp only [Config.progBase]
  omega

theorem reduce_of_lt_progBase {a : Nat} (h : a < Config.progBase) : reduce a = a := by
  simp only [Config.progBase] at h
  exact Nat.mod_eq_of_lt (by simp only [Config.memSize]; omega)

theorem exec_stack_length {i : Instr} (h : exec i s = .next t)
    (hs : s.stack.length ≤ s.params.stackDepth) : t.stack.length ≤ s.params.stackDepth := by
  cases i with
  | ret =>
    rcases s.stack.eq_nil_or_concat' with hnil | ⟨below, a, happ⟩
    · cases (exec_ret_of_nil s hnil).symm.trans h
      exact hs
    · cases (exec_ret_of_append s happ).symm.trans h
      rw [happ, List.length_append] at hs
      exact (Nat.le_add_right _ _).trans hs
  | call nnn =>
    by_cases hfull : s.stack.length = s.params.stackDepth
    · cases (exec_call_of_full s nnn hfull).symm.trans h
      exact hs
    · cases (exec_call_of_room s nnn hfull).symm.trans h
      exact (List.length_append ..).trans_le (Nat.lt_of_le_of_ne hs hfull)
  | drw | ldVxK =>
    rcases exec_frame h with ⟨_, _, rfl⟩ | ⟨c, -, rfl⟩ <;> exact hs
  | _ => rcases exec_frame h with ⟨_, rfl⟩ | ⟨c, -, rfl⟩ <;> exact hs

theorem State.Inv.takeFault (hs : s.Inv) (code : FaultCode) : (takeFault code s).Inv :=
  hs.of_phase_ne_load (fun h => by cases h) rfl hs.memory hs.stackBound (iff_of_true rfl rfl)
    fun _ _ _ => rfl

theorem State.Inv.fetched (hs : s.Inv) {keys : BitVec 16} {rnd : Byte} {rest : List Request}
    (hrun : s.aboutToRun keys rnd rest) : (s.fetched keys rnd rest).Inv :=
  hs.of_phase_ne_load (fun h => by cases hrun.1.symm.trans h) rfl hs.memory hs.stackBound
    hs.faultIffHalted fun _ _ _ => rfl

theorem State.Inv.exec {i : Instr} (hs : s.Inv) (hphase : s.phase = .run) (h : exec i s = .next t) :
    t.Inv := by
  rcases exec_keeps_or_halts h with ⟨hphase', hfault⟩ | ⟨c, -, rfl⟩
  · refine hs.of_phase_ne_load (by rw [hphase', hphase]; exact fun h => by cases h) (exec_params h)
      (exec_mem_wf h hs.memory) (exec_stack_length h hs.stackBound)
      (by rw [hfault, hphase']; exact hs.faultIffHalted) fun hw a ha => ?_
    exact exec_readByte_font hw h (by rwa [reduce_of_lt_progBase (lt_progBase_of_inFont ha)])
  · exact hs.takeFault c

/-! ### The host's requests -/

/-- A memory that reads as before below the program region. -/
theorem State.Inv.of_mem (hs : s.Inv) {m : Memory} (hwf : Memory.wf s.params m)
    (hlow : ∀ a, a < Config.progBase → { s with mem := m }.readByte a = s.readByte a) :
    { s with mem := m }.Inv where
  __ := hs
  memory := hwf
  fontIntact hw a ha := (hlow a (lt_progBase_of_inFont ha)).trans (hs.fontIntact hw a ha)
  loadMemory hl a ha := (hlow a ha).trans (hs.loadMemory hl a ha)

theorem State.takeLoad_mem_wf (hs : Memory.wf s.params s.mem) (a : Addr) (b : Byte) :
    Memory.wf s.params (s.takeLoad a b).mem := by
  by_cases hphase : s.phase = .load
  · rw [State.takeLoad_of_load hphase]
    split
    · exact s.writeByte_wf a.toNat b hs
    · exact hs
  · rw [State.takeLoad_of_phase_ne_load hphase]
    exact hs

/-- R72, R167: the loader writes no byte below 0x200. -/
theorem State.Inv.takeLoad (hs : s.Inv) (a : Addr) (b : Byte) : (s.takeLoad a b).Inv := by
  rw [State.takeLoad_eq]
  refine hs.of_mem (State.takeLoad_mem_wf hs.memory a b) fun c hc => ?_
  rw [← State.takeLoad_eq, State.readByte_takeLoad, if_neg]
  simp only [Config.progBase] at hc
  omega

theorem State.Inv.takeStart (hs : s.Inv) : s.takeStart.Inv := by
  by_cases hphase : s.phase = .load
  · have hnone : ¬ s.fault.isSome = true := fun h => by cases hphase.symm.trans (hs.faultIffHalted.1 h)
    rw [State.takeStart_of_load hphase]
    exact hs.of_phase_ne_load (fun h => by cases h) rfl hs.memory hs.stackBound
      (iff_of_false hnone fun h => by cases h) fun _ _ _ => rfl
  · rwa [State.takeStart_of_phase_ne_load hphase]

theorem State.Inv.takeTick (hs : s.Inv) : s.takeTick.Inv := by
  by_cases hphase : s.phase = .run
  · rw [State.takeTick_of_run hphase]
    exact hs.of_phase_ne_load (fun h => by cases hphase.symm.trans h) rfl hs.memory hs.stackBound
      hs.faultIffHalted fun _ _ _ => rfl
  · rwa [State.takeTick_of_phase_ne_run hphase]

/-- R44: below the program region the reset memory reads as itself, and every other element is the reset one. -/
theorem State.Inv.resetWith {p : Params} (hp : p.wf) : (State.resetWith p).Inv where
  params := hp
  memory := Memory.nil_wf p
  stackBound := Nat.zero_le _
  faultIffHalted := iff_of_false Bool.false_ne_true fun h => by cases h
  fontIntact _ a ha := by
    rw [State.readByte_resetWith, reduce_of_lt_progBase (lt_progBase_of_inFont ha)]; rfl
  loadMemory _ a ha := by rw [State.readByte_resetWith, reduce_of_lt_progBase ha]; rfl
  loadState _ := ⟨rfl, rfl, rfl, rfl, rfl, rfl, rfl⟩

theorem State.Inv.takeReset (hs : s.Inv) : s.takeReset.Inv where
  __ := State.Inv.resetWith hs.params

theorem State.Inv.step (hs : s.Inv) (h : step s = .next t) : t.Inv := by
  cases step_cases h with
  | idle _ ht => exact ht ▸ { hs with }
  | reset rest _ ht => exact ht ▸ (hs.accepted rest).takeReset
  | load a b rest _ ht => exact ht ▸ (hs.accepted rest).takeLoad a b
  | start rest _ ht => exact ht ▸ (hs.accepted rest).takeStart
  | tick rest _ ht => exact ht ▸ (hs.accepted rest).takeTick
  | cycleIgnored keys rnd rest _ _ ht => exact ht ▸ hs.accepted rest
  | illegal keys rnd rest e hrun _ ht => exact ht ▸ (hs.fetched hrun).takeFault _
  | instr keys rnd rest i hrun _ hexec => exact (hs.fetched hrun).exec hrun.1 hexec

end

end Sys2Proof.Machine

namespace Sys2Proof
open Machine

/-- Settles O58: the base case of the invariant (R44). -/
theorem resetMeetsTheInvariant : Obligations.ResetMeetsTheInvariant := fun _ => State.Inv.resetWith

/-- Settles O59: the step of the invariant, request by request. -/
theorem everyStepKeepsTheInvariant : Obligations.EveryStepKeepsTheInvariant := fun _ _ => State.Inv.step

end Sys2Proof
end
